-- ==== Sys2Proof/Word.lean ====
section
/-! DEFINITION. The two widths of the machine (spec/00_scope.md R6, R7). -/

namespace Sys2Proof

/-- A byte: one cell of memory, an opcode, the operand of `i`, the keyboard latch (R6, R7). -/
abbrev Byte := BitVec 8

/-- A word: an address, a 16-bit operand, a 16-bit register cell (R6 WORD_WIDTH and ADDR_WIDTH, R7). -/
abbrev Word := BitVec 16

end Sys2Proof
end

