-- ==== Sys2Proof/Config.lean ====
section
/-! DEFINITION. The parameters that spec/00_scope.md R6 asks a model to hold as configuration, as types. The values the
spec gives them stand in Sys2Proof/Machine/Params.lean. Only values to which the spec gives a meaning are constructors. -/

namespace Sys2Proof

/-- BYTE_ORDER of data words and embedded operands (D1, D2). `little`: bits 7..0 at the lower address. -/
inductive ByteOrder where
  | little
  | big
  deriving DecidableEq, Repr

/-- TOP_OF_MEMORY (D4): a word access at `0xFFFF` and an instruction past `0xFFFF` either fault, or take
the bytes past the top from address `0x0000` on. -/
inductive TopOfMemory where
  | fault
  | wrap
  deriving DecidableEq, Repr

/-- POP_ORDER (D14, conflict C2): read at `SB - SP` and then decrease SP, or the literal text of the source. -/
inductive PopOrder where
  | readThenDec
  | decThenRead
  deriving DecidableEq, Repr

/-- A policy for which the spec names the fault and no alternative (DIV_ZERO D8, BAD_VECTOR D11). -/
inductive FaultPolicy where
  | fault
  deriving DecidableEq, Repr

/-- ALIGNMENT of word accesses and instructions (D3): none is required; the spec gives no alternative. -/
inductive Alignment where
  | unrestricted
  deriving DecidableEq, Repr

/-- The engine's own arithmetic on 16-bit cells, `IP + len`, `SP + 2`, `SP - 2` and `SB - SP` (D5): modulo 2^16; the spec
gives no alternative. -/
inductive CellArithmetic where
  | modulo
  deriving DecidableEq, Repr

/-- OPCODE_BYTES (D6): the byte of each opcode, in the order of the table of R86. -/
structure OpcodeBytes where
  /-- `?` -/
  brEq : Byte
  /-- `=` -/
  storeImm : Byte
  /-- `l` -/
  copy : Byte
  /-- `+` -/
  add : Byte
  /-- `-` -/
  sub : Byte
  /-- `*` -/
  mul : Byte
  /-- `/` -/
  div : Byte
  /-- `m` -/
  mod : Byte
  /-- `o` -/
  or : Byte
  /-- `a` -/
  and : Byte
  /-- `x` -/
  xor : Byte
  /-- `n` -/
  lnot : Byte
  /-- `i` -/
  int : Byte
  /-- `p` -/
  push : Byte
  /-- `P` -/
  pop : Byte
  /-- `h` -/
  yield : Byte
  /-- `H` -/
  halt : Byte
  deriving DecidableEq, Repr

/-- The parameters of R6 that a `decision` of spec/92_eei_decisions.md fixes. -/
structure Config where
  /-- BYTE_ORDER (D1, D2). -/
  byteOrder : ByteOrder
  /-- ALIGNMENT (D3). -/
  alignment : Alignment
  /-- TOP_OF_MEMORY (D4). -/
  topOfMemory : TopOfMemory
  /-- The arithmetic of `IP + len`, `SP + 2`, `SP - 2` and `SB - SP` (D5). -/
  cellArithmetic : CellArithmetic
  /-- OPCODE_BYTES (D6, R86). -/
  opcodeBytes : OpcodeBytes
  /-- DIV_SIGNED (D7): `/` and `m` read their operands as two's complement numbers. -/
  divSigned : Bool
  /-- DIV_ZERO (D8). -/
  divZero : FaultPolicy
  /-- LOGIC_BITWISE (D9): `o` and `a` work bit by bit, not on truth values. -/
  logicBitwise : Bool
  /-- NOT_IS_LOGICAL (D10): `n` answers 1 or 0, not the complement. -/
  notIsLogical : Bool
  /-- BAD_VECTOR (D11): `i N` with `N` above 3. -/
  badVector : FaultPolicy
  /-- POP_ORDER (D14). -/
  popOrder : PopOrder
  /-- IMAGE_MAX (R211, D19): the longest image the loader copies, in bytes. -/
  imageMax : Nat
  /-- EXIT_SUCCESS (R173). -/
  exitSuccess : Nat
  /-- EXIT_FAILURE (R173, D17). -/
  exitFailure : Nat
  /-- IE_STALENESS (D20): the most instruction boundaries that can lie between an agent's IE test and its delivery; `none` is
  unbounded. -/
  ieStaleness : Option Nat
  deriving DecidableEq, Repr

/-- TIMER_INTERVAL, an `open` parameter of R6: the spec gives it no value, and no rule reads it (D23, R229). -/
opaque Config.timerInterval : Nat

/-- KEYBOARD_IDLE, an `open` parameter of R6 that no rule reads (D23, R229). -/
opaque Config.keyboardIdle : Nat

/-- YIELD_TIME, an `open` parameter of R6 that no rule reads (D16, D23, R229). -/
opaque Config.yieldTime : Nat

/-- DISPLAY_PERIOD, an `open` parameter of R6 that no rule reads (D23, R229). -/
opaque Config.displayPeriod : Nat

end Sys2Proof
end

