-- ==== Sys2Proof/Machine/Params.lean ====
section
/-! DEFINITION. The values of the parameters of spec/00_scope.md R6. -/

namespace Sys2Proof.Machine

/-- OPCODE_BYTES: the ASCII codes of the opcode characters, as the table of R86 prints them (R85, D6). -/
def asciiOpcodes : OpcodeBytes where
  brEq := 0x3F
  storeImm := 0x3D
  copy := 0x6C
  add := 0x2B
  sub := 0x2D
  mul := 0x2A
  div := 0x2F
  mod := 0x6D
  or := 0x6F
  and := 0x61
  xor := 0x78
  lnot := 0x6E
  int := 0x69
  push := 0x70
  pop := 0x50
  yield := 0x68
  halt := 0x48

/-- The values the spec's rules state, by its decisions D1 to D11, D14, D17, D19 and D20 (spec/92_eei_decisions.md).
What the values not taken here would mean: see notes/assumptions/3.md. -/
def params : Config where
  byteOrder := .little
  alignment := .unrestricted
  topOfMemory := .fault
  cellArithmetic := .modulo
  opcodeBytes := asciiOpcodes
  divSigned := false
  divZero := .fault
  logicBitwise := true
  notIsLogical := true
  badVector := .fault
  popOrder := .readThenDec
  imageMax := 65535
  exitSuccess := 0
  exitFailure := 1
  ieStaleness := none

/-- MEM_SIZE: the addresses `0x0000..0xFFFF` (R6, R20). -/
def memSize : Nat := 0x10000

/-- VB_BASE: the address of the video cell of row 0, column 0 (R6, R29). -/
def vbBase : Nat := 0x0820

/-- VB_ROWS (R6, R29). -/
def vbRows : Nat := 25

/-- VB_COLS (R6, R29). -/
def vbCols : Nat := 80

/-- VB_SIZE: the bytes of the video buffer (R6, R29). -/
def vbSize : Nat := 2000

end Sys2Proof.Machine
end

