-- ==== Sys2Proof/Syntax.lean ====
section
/-! DEFINITION. The instructions of spec/opcode_table.json (spec/30_encoding.md R86), one constructor a row, and the
five formats of R81. An operand called `d`, `s`, `s1` or `s2` is an *addr*, `a`, `b`, `v` or `n` an *imm*, `t` a *target*
(spec/00_scope.md R12). -/

namespace Sys2Proof

/-- The 17 instructions. -/
inductive Instr where
  /-- `? A B T`: branch to `T` if the two embedded values are equal (R100). -/
  | brEq (a b t : Word)
  /-- `= D V`: store the literal `V` at `D` (R110). -/
  | storeImm (d v : Word)
  /-- `l D S`: copy the word at `S` to `D` (R111). -/
  | copy (d s : Word)
  /-- `+ D S1 S2` (R121). -/
  | add (d s1 s2 : Word)
  /-- `- D S1 S2` (R122). -/
  | sub (d s1 s2 : Word)
  /-- `* D S1 S2` (R123). -/
  | mul (d s1 s2 : Word)
  /-- `/ D S1 S2` (R124; the table's row whose mnemonic reads ROW). -/
  | div (d s1 s2 : Word)
  /-- `m D S1 S2`: modulo (R125). -/
  | mod (d s1 s2 : Word)
  /-- `o D S1 S2` (R126). -/
  | or (d s1 s2 : Word)
  /-- `a D S1 S2` (R127). -/
  | and (d s1 s2 : Word)
  /-- `x D S1 S2` (R128). -/
  | xor (d s1 s2 : Word)
  /-- `n D S`: logical not (R129). -/
  | lnot (d s : Word)
  /-- `i N`: software interrupt, the one instruction with a one-byte operand (R143, R84). -/
  | int (n : Byte)
  /-- `p V`: push the literal `V` (R144). -/
  | push (v : Word)
  /-- `P D`: pop into the word at `D` (R145). -/
  | pop (d : Word)
  /-- `h`: yield hint (R160). -/
  | yield
  /-- `H`: halt (R161). -/
  | halt
  deriving DecidableEq, Repr

/-- The 17 opcodes of R86, without their operands. -/
inductive Opcode where
  | brEq | storeImm | copy | add | sub | mul | div | mod | or | and | xor | lnot | int | push | pop | yield | halt
  deriving DecidableEq, Repr

/-- The five formats of R81. -/
inductive Format where
  /-- The opcode alone. -/
  | f0
  /-- A one-byte operand. -/
  | f1b
  /-- One operand word. -/
  | f1w
  /-- Two operand words. -/
  | f2w
  /-- Three operand words. -/
  | f3w
  deriving DecidableEq, Repr

end Sys2Proof
end

