-- ==== Sys2Proof/WellFormed.lean ====
section
/-! DEFINITION. Which instruction terms are legal (spec/30_encoding.md R90). -/

namespace Sys2Proof

/-- R90: every operand value of a legal instruction is legal, with one exception, the byte `N` of `i`,
which must be `0..3`. (Such an `i` still decodes; executing it faults, R143.) -/
def Instr.wellFormed : Instr → Bool
  | .brEq _ _ _ => true
  | .storeImm _ _ => true
  | .copy _ _ => true
  | .add _ _ _ => true
  | .sub _ _ _ => true
  | .mul _ _ _ => true
  | .div _ _ _ => true
  | .mod _ _ _ => true
  | .or _ _ _ => true
  | .and _ _ _ => true
  | .xor _ _ _ => true
  | .lnot _ _ => true
  | .int n => decide (n.toNat < 4)
  | .push _ => true
  | .pop _ => true
  | .yield => true
  | .halt => true

end Sys2Proof
end

