-- ==== Sys2Proof/Decode.lean ====
section
/-! DEFINITION. From bytes to instructions and back (spec/30_encoding.md R80 to R90, spec/20_memory.md R50, R51), with the
byte-order helpers that memory accesses share. -/

namespace Sys2Proof

open Machine (params)

/-- The word whose bytes, from the lower address up, are `first` and `second` (R50, R51, R82). -/
def joinBytes (first second : Byte) : Word :=
  match params.byteOrder with
  | .little => second ++ first
  | .big => first ++ second

/-- The byte of `w` that stands at the lower address (R8, R50). -/
def firstByte (w : Word) : Byte :=
  match params.byteOrder with
  | .little => w.extractLsb' 0 8
  | .big => w.extractLsb' 8 8

/-- The byte of `w` that stands at the higher address (R8, R50). -/
def secondByte (w : Word) : Byte :=
  match params.byteOrder with
  | .little => w.extractLsb' 8 8
  | .big => w.extractLsb' 0 8

/-- The opcode byte of R86: the parameter OPCODE_BYTES, the ASCII code of the opcode's character (R85, D6). -/
def opcodeByte : Opcode → Byte
  | .brEq => params.opcodeBytes.brEq
  | .storeImm => params.opcodeBytes.storeImm
  | .copy => params.opcodeBytes.copy
  | .add => params.opcodeBytes.add
  | .sub => params.opcodeBytes.sub
  | .mul => params.opcodeBytes.mul
  | .div => params.opcodeBytes.div
  | .mod => params.opcodeBytes.mod
  | .or => params.opcodeBytes.or
  | .and => params.opcodeBytes.and
  | .xor => params.opcodeBytes.xor
  | .lnot => params.opcodeBytes.lnot
  | .int => params.opcodeBytes.int
  | .push => params.opcodeBytes.push
  | .pop => params.opcodeBytes.pop
  | .yield => params.opcodeBytes.yield
  | .halt => params.opcodeBytes.halt

/-- The opcodes in the order of R86. -/
def allOpcodes : List Opcode :=
  [.brEq, .storeImm, .copy, .add, .sub, .mul, .div, .mod, .or, .and, .xor, .lnot, .int, .push, .pop, .yield, .halt]

/-- The opcode that a byte names; none for the 239 bytes of R89. -/
def opcodeOfByte (b : Byte) : Option Opcode :=
  allOpcodes.find? fun o => opcodeByte o == b

/-- The format column of R81 and R86. -/
def opcodeFormat : Opcode → Format
  | .brEq => .f3w
  | .storeImm => .f2w
  | .copy => .f2w
  | .add => .f3w
  | .sub => .f3w
  | .mul => .f3w
  | .div => .f3w
  | .mod => .f3w
  | .or => .f3w
  | .and => .f3w
  | .xor => .f3w
  | .lnot => .f2w
  | .int => .f1b
  | .push => .f1w
  | .pop => .f1w
  | .yield => .f0
  | .halt => .f0

/-- The length column of R81, in bytes. -/
def formatLength : Format → Nat
  | .f0 => 1
  | .f1b => 2
  | .f1w => 3
  | .f2w => 5
  | .f3w => 7

/-- The length of an instruction, a function of its opcode alone (R87). -/
def opcodeLength (o : Opcode) : Nat := formatLength (opcodeFormat o)

/-- The opcode of an instruction. -/
def instrOpcode : Instr → Opcode
  | .brEq _ _ _ => .brEq
  | .storeImm _ _ => .storeImm
  | .copy _ _ => .copy
  | .add _ _ _ => .add
  | .sub _ _ _ => .sub
  | .mul _ _ _ => .mul
  | .div _ _ _ => .div
  | .mod _ _ _ => .mod
  | .or _ _ _ => .or
  | .and _ _ _ => .and
  | .xor _ _ _ => .xor
  | .lnot _ _ => .lnot
  | .int _ => .int
  | .push _ => .push
  | .pop _ => .pop
  | .yield => .yield
  | .halt => .halt

/-- The length in bytes of an instruction (R81, R86). -/
def instrLength (i : Instr) : Nat := opcodeLength (instrOpcode i)

/-- Why bytes are no instruction. -/
inductive DecodeError where
  /-- The first byte is none of the 17 opcode bytes (R89). -/
  | unrecognizedOpcode (b : Byte)
  /-- The opcode is legal and its operand bytes are not all there: the instruction runs past the last byte given
  (R54: past `0xFFFF`). -/
  | truncated (o : Opcode)
  /-- There is no byte at all. -/
  | noBytes
  deriving DecidableEq, Repr

/-- A decoded instruction and the bytes after it, or the name of what is wrong. -/
abbrev Decoded := Except DecodeError (Instr × List Byte)

/-- The operand of format F1B (R84). -/
def oneByte (o : Opcode) (make : Byte → Instr) : List Byte → Decoded
  | n :: rest => .ok (make n, rest)
  | _ => .error (.truncated o)

/-- The operand word of format F1W (R82). -/
def oneWord (o : Opcode) (make : Word → Instr) : List Byte → Decoded
  | a :: a' :: rest => .ok (make (joinBytes a a'), rest)
  | _ => .error (.truncated o)

/-- The operand words of format F2W, in the order of the table (R80, R82). -/
def twoWords (o : Opcode) (make : Word → Word → Instr) : List Byte → Decoded
  | a :: a' :: b :: b' :: rest => .ok (make (joinBytes a a') (joinBytes b b'), rest)
  | _ => .error (.truncated o)

/-- The operand words of format F3W, in the order of the table (R80, R82). -/
def threeWords (o : Opcode) (make : Word → Word → Word → Instr) : List Byte → Decoded
  | a :: a' :: b :: b' :: c :: c' :: rest =>
    .ok (make (joinBytes a a') (joinBytes b b') (joinBytes c c'), rest)
  | _ => .error (.truncated o)

/-- The operands after an opcode byte (the rows of R86). -/
def decodeOperands : Opcode → List Byte → Decoded
  | .brEq, bs => threeWords .brEq .brEq bs
  | .storeImm, bs => twoWords .storeImm .storeImm bs
  | .copy, bs => twoWords .copy .copy bs
  | .add, bs => threeWords .add .add bs
  | .sub, bs => threeWords .sub .sub bs
  | .mul, bs => threeWords .mul .mul bs
  | .div, bs => threeWords .div .div bs
  | .mod, bs => threeWords .mod .mod bs
  | .or, bs => threeWords .or .or bs
  | .and, bs => threeWords .and .and bs
  | .xor, bs => threeWords .xor .xor bs
  | .lnot, bs => twoWords .lnot .lnot bs
  | .int, bs => oneByte .int .int bs
  | .push, bs => oneWord .push .push bs
  | .pop, bs => oneWord .pop .pop bs
  | .yield, bs => .ok (.yield, bs)
  | .halt, bs => .ok (.halt, bs)

/-- The decoder: the opcode check comes before the check that the operand bytes are there (R87, R175). -/
def decode : List Byte → Decoded
  | [] => .error .noBytes
  | b :: rest =>
    match opcodeOfByte b with
    | none => .error (.unrecognizedOpcode b)
    | some o => decodeOperands o rest

/-- The bytes of an operand word, the lower address first (R51, R82). -/
def wordBytes (w : Word) : List Byte := [firstByte w, secondByte w]

/-- The operand bytes of an instruction, operands in the order of R86. -/
def encodeOperands : Instr → List Byte
  | .brEq a b t => wordBytes a ++ wordBytes b ++ wordBytes t
  | .storeImm d v => wordBytes d ++ wordBytes v
  | .copy d s => wordBytes d ++ wordBytes s
  | .add d s1 s2 => wordBytes d ++ wordBytes s1 ++ wordBytes s2
  | .sub d s1 s2 => wordBytes d ++ wordBytes s1 ++ wordBytes s2
  | .mul d s1 s2 => wordBytes d ++ wordBytes s1 ++ wordBytes s2
  | .div d s1 s2 => wordBytes d ++ wordBytes s1 ++ wordBytes s2
  | .mod d s1 s2 => wordBytes d ++ wordBytes s1 ++ wordBytes s2
  | .or d s1 s2 => wordBytes d ++ wordBytes s1 ++ wordBytes s2
  | .and d s1 s2 => wordBytes d ++ wordBytes s1 ++ wordBytes s2
  | .xor d s1 s2 => wordBytes d ++ wordBytes s1 ++ wordBytes s2
  | .lnot d s => wordBytes d ++ wordBytes s
  | .int n => [n]
  | .push v => wordBytes v
  | .pop d => wordBytes d
  | .yield => []
  | .halt => []

/-- The encoder: the opcode byte, then the operands with no padding (R80, R81). -/
def encode (i : Instr) : List Byte := opcodeByte (instrOpcode i) :: encodeOperands i

/-- The longest instruction as bytes, from a number whose bit 0 is the least significant bit of the opcode byte and whose
bits above `nbits` count as 0. -/
def tableBytes (nbits w : Nat) : List Byte :=
  [0, 1, 2, 3, 4, 5, 6].map fun k => BitVec.ofNat 8 ((w % 2 ^ nbits) >>> (8 * k))

/-- The instruction the decoder reads from bits numbered as spec/opcode_table.json numbers them. -/
def decodeTableWord (nbits w : Nat) : Option Instr :=
  match decode (tableBytes nbits w) with
  | .ok (i, _) => some i
  | .error _ => none

end Sys2Proof
end

