-- ==== Sys2Proof/Machine/State.lean ====
section
/-! DEFINITION. The state of the machine (spec/10_state.md R20 to R35, spec/60_exceptions.md R193), the reasons a step
stops, and the state after reset. Every register is a cell of `mem` (R20): the operations that name the registers stand in
Sys2Proof/Machine/Ops.lean. -/

namespace Sys2Proof.Machine

/-- The memory: (address, byte) pairs, addresses strictly rising, no pair whose byte is what an unlisted address reads
as (`blankByte`). It covers the whole address space `0x0000..0xFFFF` (R20, R57). -/
abbrev Memory := List Host.Cell

/-- What an address that the memory does not list reads as: memory is zero-initialised (R35, R210). -/
def blankByte : Byte := 0

/-- The canonical form from the address `lo` on: addresses strictly rising and inside the address space, no blank byte. -/
def Memory.wfFrom (lo : Nat) : Memory → Bool
  | [] => true
  | (a, v) :: m => decide (lo ≤ a) && decide (a < memSize) && (v != blankByte) && Memory.wfFrom (a + 1) m

/-- The canonical form of a memory. -/
def Memory.wf (m : Memory) : Bool := Memory.wfFrom 0 m

/-- The reasons of R171. They appear nowhere in memory. -/
inductive FaultReason where
  /-- Code 1: the byte at IP is none of the 17 opcodes (R162). -/
  | unrecognizedOpcode
  /-- Code 2: `/` or `m` with a zero divisor (R124, R125). -/
  | arithmeticFault
  /-- Code 3: a word access at `0xFFFF`, or an instruction whose bytes run past `0xFFFF` (R53, R54). -/
  | addressOutOfRange
  /-- Code 4: `i N` with `N` above 3 (R143). -/
  | invalidVector
  deriving DecidableEq, Repr

/-- The run status (R32). A fault of the hardware is a transition to `faulted`, hence a next state (R170). -/
inductive RunStatus where
  | running
  | halted
  | faulted (reason : FaultReason)
  deriving DecidableEq, Repr

/-- `timer_req` (R33, R177). -/
inductive TimerReq where
  | idle
  | armed
  deriving DecidableEq, Repr

/-- `kbd_req` (R33, R178). -/
inductive KbdReq where
  | idle
  | enabled
  | latched
  deriving DecidableEq, Repr

/-- Where in a cycle the Keyboard's unlocked store of a key lands, other than at the cycle's two boundaries: between two of
the accesses of R68 (R61; spec/93_implementation_defined.md U9). -/
inductive KeyPoint where
  /-- After the instruction's bytes were fetched, before any data access. -/
  | afterFetch
  /-- Between the reads of the two source words. -/
  | betweenSources
  /-- After every read, before the result word is written. -/
  | beforeResult
  deriving DecidableEq, Repr

/-- Which agent takes the next step of R193. The Timer's and the Keyboard's request states decide which of their steps it
is, because each request state enables exactly one. -/
inductive Turn where
  /-- A `cycle` of the CPU. -/
  | cpu
  /-- A `cycle` of the CPU during which the Keyboard's unlocked store of `key` lands at the point `at_` (R61, U9), or right
  after the cycle if it has no such point. A plain `cycle` where `kbd_req` is not `Enabled`. -/
  | cpuWithKey (at_ : KeyPoint) (key : Byte)
  /-- `timer_test` or `timer_deliver`. -/
  | timer
  /-- `kbd_test`, `kbd_poll` or `kbd_deliver`; `input` is what the environment answers the poll (R178), and is used by
  no other step. -/
  | keyboard (input : Option Byte)
  deriving DecidableEq, Repr

/-- The state. The first four fields are those of R193; the last two are the model's own. -/
structure State where
  /-- The one memory, every register among its cells (R20, R21). -/
  mem : Memory
  /-- The run status (R32). -/
  status : RunStatus
  /-- The Timer agent's request state (R33). -/
  timerReq : TimerReq
  /-- The Keyboard agent's request state (R33). -/
  kbdReq : KbdReq
  /-- The model's own: the turns the environment has still to grant, the next one first; when there is none left the CPU
  takes every turn. Every interleaving of R181 is some list. See notes/assumptions/1.md. -/
  schedule : List Turn
  /-- The model's own: the key whose store is still to land in the cycle in progress, and where; none between two steps. See
  notes/assumptions/4.md. -/
  overlapKey : Option (KeyPoint × Byte)
  deriving DecidableEq, Repr

/-- Why a step has no next state. The four faults of the hardware (R171) are NOT here: they are transitions to the status
`faulted`, which State holds. -/
inductive Fault where
  /-- Raised by `step` alone, at a state whose run ended with `H`: no step of any agent is enabled (R174). Safe: the
  hardware takes no step either. -/
  | runHalted
  /-- Raised by `step` alone, at a state whose run ended with a fault: no step of any agent is enabled (R174). Safe:
  the hardware takes no step either. -/
  | runFaulted (reason : FaultReason)
  deriving DecidableEq, Repr

/-- What the model gives no meaning to. -/
inductive Refusal where
  /-- An instruction without a meaning; no arm of exec answers it. Safe. -/
  | notModelled (mnemonic : String)
  /-- Raised by `State.boot` alone: an image longer than IMAGE_MAX is outside the spec's model (R211, D19). Safe. -/
  | imageTooLong
  deriving DecidableEq, Repr

/-- The state right after creation with the empty image (R35, R210): all memory zero, so every register is 0; Running;
both agents Idle. An image is loaded by `State.boot` (Machine/Boot.lean). The schedule grants no agent a turn: see
notes/assumptions/1.md. -/
def State.reset : State where
  mem := []
  status := .running
  timerReq := .idle
  kbdReq := .idle
  schedule := []
  overlapKey := none

end Sys2Proof.Machine
end

