-- ==== Sys2Proof/Machine/Ops.lean ====
section
/-! DEFINITION. The operations every meaning is written over: memory and word accesses (spec/00_scope.md R8, R9), the
register map (spec/10_state.md R21), transactions (R11, R60, R172), the stack primitives and the entry into an interrupt
(spec/43_interrupt_stack.md R140 to R142). -/

namespace Sys2Proof.Machine

/-- The byte at an address; an unlisted address reads as `blankByte`. -/
def Memory.read : Memory → Nat → Byte
  | [], _ => blankByte
  | (k, x) :: m, a => if a = k then x else Memory.read m a

/-- Storing a byte, keeping the canonical form. -/
def Memory.write : Memory → Nat → Byte → Memory
  | [], a, v => if v = blankByte then [] else [(a, v)]
  | (k, x) :: m, a, v =>
    if a < k then if v = blankByte then (k, x) :: m else (a, v) :: (k, x) :: m
    else if a = k then if v = blankByte then m else (a, v) :: m
    else (k, x) :: Memory.write m a v

/-- `MemRead(a, 1)`: it changes nothing, at any address (R8, R56). -/
def State.byte (s : State) (a : Word) : Byte := s.mem.read a.toNat

/-- `MemWrite(a, 1, v)` (R8). -/
def State.setByte (s : State) (a : Word) (v : Byte) : State := { s with mem := s.mem.write a.toNat v }

/-- The word at `a`, byte by byte (R8, R50). No alignment is needed (R52). -/
def State.word (s : State) (a : Word) : Word := joinBytes (s.byte a) (s.byte (a + 1))

/-- Storing a word at `a`, byte by byte, the lower address first (R8, R50). -/
def State.setWord (s : State) (a v : Word) : State := (s.setByte a (firstByte v)).setByte (a + 1) (secondByte v)

/-- Whether a word access at `a` is aligned as the machine requires: it requires nothing (R52, parameter ALIGNMENT). -/
def wordAligned (_a : Word) : Bool :=
  match params.alignment with
  | .unrestricted => true

/-- Whether a word access at `a` lies inside memory (R53, parameter TOP_OF_MEMORY) and is aligned. -/
def wordInRange (a : Word) : Bool :=
  wordAligned a && match params.topOfMemory with
  | .fault => a != 0xFFFF
  | .wrap => true

/-- `MemRead(a, 2)` (R8, R53). -/
def readWord (s : State) (a : Word) : Except FaultReason Word :=
  if wordInRange a then .ok (s.word a) else .error .addressOutOfRange

/-- `MemWrite(a, 2, v)` (R8, R53). -/
def writeWord (s : State) (a v : Word) : Except FaultReason State :=
  if wordInRange a then .ok (s.setWord a v) else .error .addressOutOfRange

/-- The 16-bit cells of the Register/Device Map (R21). There is no R3 (R22). -/
inductive Reg where
  | r0 | r1 | r2 | r4
  /-- The stack offset counter (R23). -/
  | sp
  /-- The stack base (R24). -/
  | sb
  /-- The flags (R25). -/
  | fl
  /-- The instruction pointer (R26). -/
  | ip
  /-- `INT(v)`, the address of the handler of interrupt `v` (R27). -/
  | int (v : Fin 4)
  deriving DecidableEq, Repr

/-- The offset column of R21; `INT(v)` stands at `0x0010 + 2*v` (R9, R27). -/
def regAddr : Reg → Word
  | .r0 => 0x0000
  | .r1 => 0x0002
  | .r2 => 0x0004
  | .r4 => 0x0006
  | .sp => 0x0008
  | .sb => 0x000A
  | .fl => 0x000C
  | .ip => 0x000E
  | .int v => BitVec.ofNat 16 (0x0010 + 2 * v.val)

/-- The address of KB, the one-byte keyboard latch (R28). -/
def kbAddr : Word := 0x0018

/-- Reading a register is reading its cell (R9, R20). -/
def State.reg (s : State) (r : Reg) : Word := s.word (regAddr r)

/-- Writing a register is writing its cell (R9, R20). -/
def State.setReg (s : State) (r : Reg) (v : Word) : State := s.setWord (regAddr r) v

/-- The keyboard latch (R9, R28). -/
def State.kb (s : State) : Byte := s.byte kbAddr

/-- The engine's sum on 16-bit cells: modulo 2^16 (D5). -/
def cellAdd (a b : Word) : Word :=
  match params.cellArithmetic with
  | .modulo => a + b

/-- The engine's difference on 16-bit cells: modulo 2^16 (D5). -/
def cellSub (a b : Word) : Word :=
  match params.cellArithmetic with
  | .modulo => a - b

/-- The address of the byte after an instruction of `len` bytes at the current IP (R68 step 4, D5). -/
def State.nextIp (s : State) (len : Nat) : Word := cellAdd (s.reg .ip) (BitVec.ofNat 16 len)

/-- `IP <- next`, which every opcode but `?` does before its effect (R68 step 5, R88, conflict C1). -/
def State.advance (s : State) (len : Nat) : State := s.setReg .ip (s.nextIp len)

/-- The one outcome type of the machine. -/
abbrev Result := Host.Outcome State Fault Refusal

/-- Taking a fault: the run status becomes `Faulted(reason)`, and every write of the transaction is discarded because `s`
is the state the transaction began in (R11, R170, R172). Nothing is pushed, vectored or recorded (R171). -/
def State.takeFault (s : State) (r : FaultReason) : State := { s with status := .faulted r }

/-- The end of a transaction that began in `s` (R60, R172). -/
def commit (s : State) : Except FaultReason State → Result
  | .ok t => .next t
  | .error r => .next (s.takeFault r)

/-- `push(V)` (R140): SP first, then the word at the new effective address. No overflow check. -/
def push (s : State) (v : Word) : Except FaultReason State :=
  let sp := cellAdd (s.reg .sp) 2
  let s := s.setReg .sp sp
  writeWord s (cellSub (s.reg .sb) sp) v

/-- `raise(v)`, the entry into interrupt `v` (R142, R182): the handler's address is read first, the current IP is pushed,
and IP becomes the handler's address. FL is neither read nor changed (D25). -/
def raise (s : State) (v : Fin 4) : Except FaultReason State :=
  let handler := s.reg (.int v)
  match push s (s.reg .ip) with
  | .error r => .error r
  | .ok s => .ok (s.setReg .ip handler)

/-- `pop()` (R141, conflict C2): the word at the current effective address, then SP goes down by 2. It is also the return
from an interrupt, as `P IP`: there is no return instruction (R183). -/
def pop (s : State) : Except FaultReason (Word × State) :=
  match params.popOrder with
  | .readThenDec =>
    let sp := s.reg .sp
    match readWord s (cellSub (s.reg .sb) sp) with
    | .error r => .error r
    | .ok v => .ok (v, s.setReg .sp (cellSub sp 2))
  | .decThenRead =>
    let sp := cellSub (s.reg .sp) 2
    let s := s.setReg .sp sp
    match readWord s (cellSub (s.reg .sb) sp) with
    | .error r => .error r
    | .ok v => .ok (v, s)

/-- The Keyboard's store: one byte into KB, outside any transaction, and the request becomes `Latched` (R61, R178). -/
def State.storeKey (s : State) (key : Byte) : State := { s.setByte kbAddr key with kbdReq := .latched }

/-- The key store that is still to land in this cycle lands, if the Keyboard is polling (R61, R178). -/
def State.landPending (s : State) : State :=
  match s.overlapKey, s.kbdReq with
  | some (_, key), .enabled => { s.storeKey key with overlapKey := none }
  | _, _ => s

/-- Passing the point `p` of a cycle: a key store that is to land there lands (U9, R61). -/
def State.landKey (p : KeyPoint) (s : State) : State :=
  match s.overlapKey with
  | some (q, _) => if q = p then s.landPending else s
  | none => s

end Sys2Proof.Machine
end

