-- ==== Sys2Proof/Machine/Flags.lean ====
section
/-! DEFINITION. The fields of FL (spec/10_state.md R25). No instruction computes, sets or clears a flag as a side effect
(R25, R120 law 3): FL changes only through a store that covers its cell. -/

namespace Sys2Proof.Machine

/-- The mask of IE, bit 15 (R25, D25). -/
def ieMask : Word := 0x8000

/-- IE, the interrupt-enable bit: `(FL AND 0x8000) != 0` (R25, R177, R178). -/
def State.interruptEnable (s : State) : Bool := (s.reg .fl &&& ieMask) != 0

/-- CY, bit 14: declared, unused by any opcode and by any agent (R25). -/
def State.carry (s : State) : Bool := (s.reg .fl).getLsbD 14

end Sys2Proof.Machine
end

