-- ==== Sys2Proof/Machine/Agents.lean ====
section
/-! DEFINITION. The steps of the Timer and Keyboard agents (spec/60_exceptions.md R176 to R181), each taken at an instruction
boundary. The Display only reads, and takes no step (R185, D29). -/

namespace Sys2Proof.Machine

/-- `timer_test` (R177): the IE test, which neither reads nor writes anything else. -/
def timerTest (s : State) : State := if s.interruptEnable then { s with timerReq := .armed } else s

/-- `timer_deliver` (R177): IE is not tested again (R179); a fault of the push ends the run with nothing written (D30). -/
def timerDeliver (s : State) : Result :=
  match raise s 0 with
  | .ok t => .next { t with timerReq := .idle }
  | .error r => .next (s.takeFault r)

/-- A turn of the Timer: the one step its request state enables (R193). -/
def timerTurn (s : State) : Result :=
  match s.timerReq with
  | .idle => .next (timerTest s)
  | .armed => timerDeliver s

/-- `kbd_test` (R178). -/
def kbdTest (s : State) : State := if s.interruptEnable then { s with kbdReq := .enabled } else s

/-- `kbd_poll` (R178): the environment answers no byte, or a byte that goes into KB. -/
def kbdPoll (input : Option Byte) (s : State) : State :=
  match input with
  | none => { s with kbdReq := .idle }
  | some key => s.storeKey key

/-- `kbd_deliver` (R178). -/
def kbdDeliver (s : State) : Result :=
  match raise s 1 with
  | .ok t => .next { t with kbdReq := .idle }
  | .error r => .next (s.takeFault r)

/-- A turn of the Keyboard: the one step its request state enables (R193). -/
def keyboardTurn (input : Option Byte) (s : State) : Result :=
  match s.kbdReq with
  | .idle => .next (kbdTest s)
  | .enabled => .next (kbdPoll input s)
  | .latched => kbdDeliver s

/-- A key store that overlapped a cycle without the point where it was to land lands right after the cycle, if the run goes on
(R61, R174, D21). -/
def settleKey (s : State) : State :=
  match s.status with
  | .running => { s.landPending with overlapKey := none }
  | .halted => { s with overlapKey := none }
  | .faulted _ => { s with overlapKey := none }

end Sys2Proof.Machine
end

