-- ==== Sys2Proof/Machine/Boot.lean ====
section
/-! DEFINITION. What stands at the block's other interfaces (spec/60_exceptions.md R199): the image load (R35, R211), the run
status with its codes (R171, R173), and the video cells (R29). -/

namespace Sys2Proof.Machine

/-- The image's bytes from the address `a` on, as memory: byte `k` of the image is `mem[k]`, the rest is zero (R35, R211). -/
def imageCells (a : Nat) : List Byte → Memory
  | [] => []
  | v :: img => if v = blankByte then imageCells (a + 1) img else (a, v) :: imageCells (a + 1) img

/-- Creating a machine with an image (R35, R210, R211), for an environment that will grant the turns of `turns`. The engine
sets nothing: every register, IP among them, is what the image holds (R212). An image longer than IMAGE_MAX is refused (D19). -/
def State.boot (img : List Byte) (turns : List Turn) : Result :=
  if img.length ≤ params.imageMax then .next { State.reset with mem := imageCells 0 img, schedule := turns }
  else .refused .imageTooLong

/-- The code of a fault reason, a label that stands nowhere in memory (R171, D17). -/
def faultCode : FaultReason → Nat
  | .unrecognizedOpcode => 1
  | .arithmeticFault => 2
  | .addressOutOfRange => 3
  | .invalidVector => 4

/-- The exit code of a run that has ended; none while it runs (R173). -/
def exitCode : RunStatus → Option Nat
  | .running => none
  | .halted => some params.exitSuccess
  | .faulted _ => some params.exitFailure

/-- The address of the video cell of row `r`, column `c` (R29). -/
def videoAddr (r : Fin 25) (c : Fin 80) : Word := BitVec.ofNat 16 (vbBase + vbCols * r.val + c.val)

/-- The character in a video cell; 0 is blank (R29). It is what the video interface shows (R199). -/
def State.videoCell (s : State) (r : Fin 25) (c : Fin 80) : Byte := s.byte (videoAddr r c)

end Sys2Proof.Machine
end

