-- ==== Sys2Proof/Machine/Operands.lean ====
section
/-! DEFINITION. The operand roles of spec/30_encoding.md R83 and the shapes that instructions share: the three-address shape
of spec/42_arith_logic.md R120 law 7 and the two-operand shape of R111 and R129. An *imm* and a *target* are the operand word
itself; an *addr* is an absolute address, the only addressing mode (R83, R112). -/

namespace Sys2Proof.Machine

/-- The shape of R111 and R129: advance IP, read the source word, write a word computed from it. A Keyboard store that
overlaps the cycle may land between the two (R61). -/
def unaryShape (len : Nat) (f : Word → Word) (d src : Word) (s : State) : Result :=
  let n := s.advance len
  commit s (match readWord n src with
    | .error r => .error r
    | .ok v => writeWord (n.landKey .beforeResult) d (f v))

/-- The shape of R120 law 7: the address checks, then S1, then S2, then the operator, then D. A Keyboard store that overlaps
the cycle may land between the two reads (U9); it is no write of this transaction, so an arithmetic fault does not discard it.
It may also land between the reads and the write. -/
def ternaryShape (f : Word → Word → Except FaultReason Word) (d s1 s2 : Word) (s : State) : Result :=
  if wordInRange d && wordInRange s1 && wordInRange s2 then
    let n := s.advance 7
    let a := n.word s1
    let n := n.landKey .betweenSources
    let b := n.word s2
    match f a b with
    | .ok r => .next ((n.landKey .beforeResult).setWord d r)
    | .error r => .next ((s.landKey .betweenSources).takeFault r)
  else .next (s.takeFault .addressOutOfRange)

/-- An operator that never faults, as the operator of `ternaryShape`. -/
def total (f : Word → Word → Word) (a b : Word) : Except FaultReason Word := .ok (f a b)

end Sys2Proof.Machine
end

