-- ==== Sys2Proof/Machine/ArithLogic.lean ====
section
/-! DEFINITION. The family of spec/42_arith_logic.md: the operators on exact integers, narrowed to 16 bits at the end
(R120 law 1), and the nine meanings. None writes a flag (R120 law 3). -/

namespace Sys2Proof.Machine

/-- `(a + b) mod 2^16` (R121). -/
def addOp (a b : Word) : Word := BitVec.ofNat 16 (a.toNat + b.toNat)

/-- `(a - b) mod 2^16`, the first source minus the second (R122). -/
def subOp (a b : Word) : Word := BitVec.ofInt 16 ((a.toNat : Int) - (b.toNat : Int))

/-- `(a * b) mod 2^16` (R123). -/
def mulOp (a b : Word) : Word := BitVec.ofNat 16 (a.toNat * b.toNat)

/-- What a zero divisor does (D8). -/
def zeroDivisor : Except FaultReason Word :=
  match params.divZero with
  | .fault => .error .arithmeticFault

/-- `a div b` on unsigned operands (R124, R10; DIV_SIGNED D7). -/
def divOp (a b : Word) : Except FaultReason Word :=
  if b = 0 then zeroDivisor
  else if params.divSigned then .ok (BitVec.ofInt 16 (a.toInt.tdiv b.toInt))
  else .ok (BitVec.ofNat 16 (a.toNat / b.toNat))

/-- `a rem b = a - b * (a div b)` on unsigned operands (R125, R10; DIV_SIGNED D7). -/
def modOp (a b : Word) : Except FaultReason Word :=
  if b = 0 then zeroDivisor
  else if params.divSigned then .ok (BitVec.ofInt 16 (a.toInt.tmod b.toInt))
  else .ok (BitVec.ofNat 16 (a.toNat - b.toNat * (a.toNat / b.toNat)))

/-- The word for a truth value: 1 or 0 (D10). -/
def truth (b : Bool) : Word := if b then 1 else 0

/-- `a OR b`, bit by bit (R126; LOGIC_BITWISE D9). -/
def orOp (a b : Word) : Word := if params.logicBitwise then a ||| b else truth (a != 0 || b != 0)

/-- `a AND b`, bit by bit (R127; LOGIC_BITWISE D9). -/
def andOp (a b : Word) : Word := if params.logicBitwise then a &&& b else truth (a != 0 && b != 0)

/-- `a XOR b`, bit by bit (R128). -/
def xorOp (a b : Word) : Word := a ^^^ b

/-- 1 for a zero word, else 0 (R129; NOT_IS_LOGICAL D10). -/
def notOp (v : Word) : Word := if params.notIsLogical then truth (v == 0) else ~~~v

/-- `+ D S1 S2` (R121). -/
def execAdd (d s1 s2 : Word) (s : State) : Result := ternaryShape (total addOp) d s1 s2 s

/-- `- D S1 S2` (R122). -/
def execSub (d s1 s2 : Word) (s : State) : Result := ternaryShape (total subOp) d s1 s2 s

/-- `* D S1 S2` (R123). -/
def execMul (d s1 s2 : Word) (s : State) : Result := ternaryShape (total mulOp) d s1 s2 s

/-- `/ D S1 S2` (R124). -/
def execDiv (d s1 s2 : Word) (s : State) : Result := ternaryShape divOp d s1 s2 s

/-- `m D S1 S2` (R125). -/
def execMod (d s1 s2 : Word) (s : State) : Result := ternaryShape modOp d s1 s2 s

/-- `o D S1 S2` (R126). -/
def execOr (d s1 s2 : Word) (s : State) : Result := ternaryShape (total orOp) d s1 s2 s

/-- `a D S1 S2` (R127). -/
def execAnd (d s1 s2 : Word) (s : State) : Result := ternaryShape (total andOp) d s1 s2 s

/-- `x D S1 S2` (R128). -/
def execXor (d s1 s2 : Word) (s : State) : Result := ternaryShape (total xorOp) d s1 s2 s

/-- `n D S` (R129). -/
def execLnot (d src : Word) (s : State) : Result := unaryShape 5 notOp d src s

end Sys2Proof.Machine
end

