-- ==== Sys2Proof/Machine/CompareBranch.lean ====
section
/-! DEFINITION. The family of spec/40_compare_branch.md. -/

namespace Sys2Proof.Machine

/-- `? A B T` (R100): the literals are compared on all 16 bits; IP is written once, with `T` or with `next`, and nothing
else is written. -/
def execBrEq (a b t : Word) (s : State) : Result :=
  .next (s.setReg .ip (if a = b then t else s.nextIp 7))

end Sys2Proof.Machine
end

