-- ==== Sys2Proof/Machine/InterruptStack.lean ====
section
/-! DEFINITION. The opcodes of spec/43_interrupt_stack.md. -/

namespace Sys2Proof.Machine

/-- What `i` does with a byte that names no vector (R143, D11). -/
def badVector : Except FaultReason State :=
  match params.badVector with
  | .fault => .error .invalidVector

/-- `i N` (R143): IE is not tested; the saved address is `next`; `N` is checked before the push. -/
def execInt (n : Byte) (s : State) : Result :=
  commit s (if h : n.toNat < 4 then raise (s.advance 2) ⟨n.toNat, h⟩ else badVector)

/-- `p V` (R144). -/
def execPush (v : Word) (s : State) : Result := commit s (push (s.advance 3) v)

/-- `P D` (R145): the destination is written after the SP update. `P IP` is the return from a handler (R183). A Keyboard
store that overlaps the cycle may land between the read of the stack word and the write (R61). -/
def execPop (d : Word) (s : State) : Result :=
  commit s (match pop (s.advance 3) with
    | .error r => .error r
    | .ok (v, t) => writeWord (t.landKey .beforeResult) d v)

end Sys2Proof.Machine
end

