-- ==== Sys2Proof/Machine/StoreCopy.lean ====
section
/-! DEFINITION. The family of spec/41_store_copy.md. -/

namespace Sys2Proof.Machine

/-- `= D V` (R110): a store to the IP cell lands after `IP <- next`, so it is a jump. -/
def execStoreImm (d v : Word) (s : State) : Result := commit s (writeWord (s.advance 5) d v)

/-- `l D S` (R111): the source word is read whole, after `IP <- next`, before the destination is written. -/
def execCopy (d src : Word) (s : State) : Result := unaryShape 5 id d src s

end Sys2Proof.Machine
end

