-- ==== Sys2Proof/Machine/YieldHalt.lean ====
section
/-! DEFINITION. The opcodes of spec/44_yield_halt.md. -/

namespace Sys2Proof.Machine

/-- `h` (R160): nothing changes but IP. -/
def execYield (s : State) : Result := .next (s.advance 1)

/-- `H` (R161): the status becomes Halted and IP is `next` (D15). -/
def execHalt (s : State) : Result := .next { s.advance 1 with status := .halted }

end Sys2Proof.Machine
end

