-- ==== Sys2Proof/Machine/Dispatch.lean ====
section
/-! DEFINITION. One arm per instruction. The state `s` holds the address of the instruction in its IP cell; each meaning is
one whole transaction, `IP <- next` included (spec/30_encoding.md R88). -/

namespace Sys2Proof.Machine

def exec (i : Instr) (s : State) : Host.Outcome State Fault Refusal :=
  match i with
  | .brEq a b t => Sys2Proof.Machine.execBrEq a b t s
  | .storeImm d v => Sys2Proof.Machine.execStoreImm d v s
  | .copy d src => Sys2Proof.Machine.execCopy d src s
  | .add d s1 s2 => Sys2Proof.Machine.execAdd d s1 s2 s
  | .sub d s1 s2 => Sys2Proof.Machine.execSub d s1 s2 s
  | .mul d s1 s2 => Sys2Proof.Machine.execMul d s1 s2 s
  | .div d s1 s2 => Sys2Proof.Machine.execDiv d s1 s2 s
  | .mod d s1 s2 => Sys2Proof.Machine.execMod d s1 s2 s
  | .or d s1 s2 => Sys2Proof.Machine.execOr d s1 s2 s
  | .and d s1 s2 => Sys2Proof.Machine.execAnd d s1 s2 s
  | .xor d s1 s2 => Sys2Proof.Machine.execXor d s1 s2 s
  | .lnot d src => Sys2Proof.Machine.execLnot d src s
  | .int n => Sys2Proof.Machine.execInt n s
  | .push v => Sys2Proof.Machine.execPush v s
  | .pop d => Sys2Proof.Machine.execPop d s
  | .yield => Sys2Proof.Machine.execYield s
  | .halt => Sys2Proof.Machine.execHalt s

end Sys2Proof.Machine
end

