-- ==== Sys2Proof/Machine/Fetch.lean ====
section
/-! DEFINITION. Fetching an instruction's bytes at IP and decoding them (spec/30_encoding.md R82, R88 and spec/20_memory.md
R51, R54, R66). There is no instruction buffer: every fetch reads memory. -/

namespace Sys2Proof.Machine

/-- Whether the byte `k` places after `ip` exists (R54, parameter TOP_OF_MEMORY). -/
def fetchByteExists (ip : Word) (k : Nat) : Bool :=
  match params.topOfMemory with
  | .fault => decide (ip.toNat + k < memSize)
  | .wrap => true

/-- The bytes from IP on, as many as the longest instruction has, as far as they exist. -/
def fetchBytes (s : State) : List Byte :=
  ([0, 1, 2, 3, 4, 5, 6].filter (fetchByteExists (s.reg .ip))).map fun k => s.byte (s.reg .ip + BitVec.ofNat 16 k)

/-- The fault that bytes which are no instruction raise, in the order of R175: the opcode first, then the length. -/
def decodeFault : DecodeError → FaultReason
  | .unrecognizedOpcode _ => .unrecognizedOpcode
  | .truncated _ => .addressOutOfRange
  | .noBytes => .addressOutOfRange

/-- Fetch and decode: the first four lines of R88. -/
def fetch (s : State) : Except FaultReason Instr :=
  match decode (fetchBytes s) with
  | .ok (i, _) => .ok i
  | .error e => .error (decodeFault e)

end Sys2Proof.Machine
end

