-- ==== Sys2Proof/Machine/Step.lean ====
section
/-! DEFINITION. One step of the machine (spec/60_exceptions.md R193) and the placing of one instruction where the next step
fetches it. -/

namespace Sys2Proof.Machine

/-- One cycle of the engine (R88), for a running machine. -/
def cycle (s : State) : Result :=
  match fetch s with
  | .ok i => exec i s
  | .error r => .next (s.takeFault r)

/-- A cycle during which the Keyboard, while it polls, stores `key` (R61, U9): the instruction is fetched first, and the store
lands at the point `p` of the rest. -/
def cycleWithKey (p : KeyPoint) (key : Byte) (s : State) : Result :=
  match s.kbdReq with
  | .enabled =>
    match fetch s with
    | .ok i =>
      match exec i (State.landKey .afterFetch { s with overlapKey := some (p, key) }) with
      | .next t => .next (settleKey t)
      | .fault r => .fault r
      | .refused r => .refused r
    | .error r => .next (s.takeFault r)
  | .idle => cycle s
  | .latched => cycle s

/-- The agent that moves next and the state with that turn taken off the schedule; the CPU once the schedule is empty. -/
def takeTurn (s : State) : Turn × State :=
  match s.schedule with
  | [] => (.cpu, s)
  | t :: rest => (t, { s with schedule := rest })

/-- One turn of one agent (R193). -/
def runTurn (t : Turn) (s : State) : Result :=
  match t with
  | .cpu => cycle s
  | .cpuWithKey p key => cycleWithKey p key s
  | .timer => timerTurn s
  | .keyboard input => keyboardTurn input s

/-- One step: a turn of one agent while Running; none is enabled once the run has ended (R174, R193). -/
def step (s : State) : Host.Outcome State Fault Refusal :=
  match s.status with
  | .running => runTurn (takeTurn s).1 (takeTurn s).2
  | .halted => .fault .runHalted
  | .faulted r => .fault (.runFaulted r)

/-- Storing bytes from the address `a` up. -/
def storeBytes (s : State) (a : Word) : List Byte → State
  | [] => s
  | v :: vs => storeBytes (s.setByte a v) (a + 1) vs

/-- Where the longest instruction fits without covering the IP cell: at IP if it does there, else at `0x0100`. -/
def fetchSite (s : State) : Word :=
  let ip := s.reg .ip
  if ip.toNat ≤ 0x0007 ∨ (0x0010 ≤ ip.toNat ∧ ip.toNat ≤ 0xFFF9) then ip else 0x0100

/-- A schedule whose first turn is a cycle of the CPU: the one given if it is one already, else one more turn before it. -/
def cpuFirst : List Turn → List Turn
  | [] => []
  | .cpu :: rest => .cpu :: rest
  | t :: rest => .cpu :: t :: rest

/-- `s` with IP at `a`. -/
def moveIp (s : State) (a : Word) : State := if s.reg .ip = a then s else s.setReg .ip a

/-- `s` with one instruction stored where the next step fetches (it stands for the image load of R211): the status Running,
the next turn a cycle of the CPU, the IP cell at `fetchSite`, and the instruction's bytes there. -/
def State.withFetchWord (s : State) (nbits w : Nat) : State :=
  storeBytes (moveIp { s with status := .running, schedule := cpuFirst s.schedule } (fetchSite s)) (fetchSite s)
    (tableBytes nbits w)

end Sys2Proof.Machine
end

