-- ==== Sys2Proof/Safety.lean ====
section
/-! DEFINITION. The terms that statements about the machine use: what an instruction may write, what stays the same, what
every state between two steps satisfies, and the order of the fault checks. -/

namespace Sys2Proof.Machine

/-- The two bytes of the word at `a`. -/
def cells (a : Word) : List Word := [a, a + 1]

/-- The two bytes of a register's cell. -/
def regCells (r : Reg) : List Word := cells (regAddr r)

/-- The word at `a` shares no byte with the word at `b`. -/
abbrev apart (a b : Word) : Prop := ∀ x ∈ cells a, x ∉ cells b

/-- The word at `a` shares no byte with the cell of `r`. -/
abbrev apartReg (a : Word) (r : Reg) : Prop := apart a (regAddr r)

/-- Every byte of memory, every register among them, reads in `t` as it did in `s`, but for the bytes listed. -/
def SameBytesExcept (written : List Word) (s t : State) : Prop := ∀ a, a ∉ written → t.byte a = s.byte a

/-- All state outside memory is the same (R20: the run status and the agents' request states; and the model's own fields). -/
def SameControl (s t : State) : Prop :=
  t.status = s.status ∧ t.timerReq = s.timerReq ∧ t.kbdReq = s.kbdReq ∧ t.schedule = s.schedule ∧
    t.overlapKey = s.overlapKey

/-- What holds of every state between two steps: memory in canonical form, no key store in progress. -/
def State.Inv (s : State) : Prop := s.mem.wf = true ∧ s.overlapKey = none

/-- The address a push stores to: the effective address after SP went up by 2 (R140). -/
def State.pushAddr (s : State) : Word := s.reg .sb - (s.reg .sp + 2)

/-- The address a pop reads: the current effective address (R141). -/
def State.popAddr (s : State) : Word := s.reg .sb - s.reg .sp

/-- What a source word at `a` holds once the IP cell holds `next` (R68): `next` at the IP cell itself, one byte of it in the two
words that share one byte with the cell, and the word of `s` everywhere else. -/
def State.sourceWord (s : State) (len : Nat) (a : Word) : Word :=
  if a = 0x000E then s.nextIp len
  else if a = 0x000D then (s.nextIp len).extractLsb' 0 8 ++ s.byte 0x000D
  else if a = 0x000F then s.byte 0x0010 ++ (s.nextIp len).extractLsb' 8 8
  else s.word a

/-- The named premise of D20: IE_STALENESS admits that many instruction boundaries between an IE test and its delivery. -/
def stalenessAdmits (boundaries : Nat) : Prop :=
  match params.ieStaleness with
  | none => True
  | some most => boundaries ≤ most

/-- The words an instruction stores to by its own effect, IP <- next and the SP update apart (R83, R140). -/
def storedWords (i : Instr) (s : State) : List Word :=
  match i with
  | .brEq _ _ _ => []
  | .storeImm d _ => [d]
  | .copy d _ => [d]
  | .add d _ _ => [d]
  | .sub d _ _ => [d]
  | .mul d _ _ => [d]
  | .div d _ _ => [d]
  | .mod d _ _ => [d]
  | .or d _ _ => [d]
  | .and d _ _ => [d]
  | .xor d _ _ => [d]
  | .lnot d _ => [d]
  | .int _ => [s.pushAddr]
  | .push _ => [s.pushAddr]
  | .pop d => [d]
  | .yield => []
  | .halt => []

/-- The words an instruction reads as data, SP and SB of the stack instructions among them (R55, R83). -/
def loadedWords (i : Instr) (s : State) : List Word :=
  match i with
  | .brEq _ _ _ => []
  | .storeImm _ _ => []
  | .copy _ a => [a]
  | .add _ a b => [a, b]
  | .sub _ a b => [a, b]
  | .mul _ a b => [a, b]
  | .div _ a b => [a, b]
  | .mod _ a b => [a, b]
  | .or _ a b => [a, b]
  | .and _ a b => [a, b]
  | .xor _ a b => [a, b]
  | .lnot _ a => [a]
  | .int _ => []
  | .push _ => []
  | .pop _ => [s.popAddr]
  | .yield => []
  | .halt => []

/-- Whether an instruction updates SP. -/
def usesStack : Instr → Bool
  | .brEq _ _ _ => false
  | .storeImm _ _ => false
  | .copy _ _ => false
  | .add _ _ _ => false
  | .sub _ _ _ => false
  | .mul _ _ _ => false
  | .div _ _ _ => false
  | .mod _ _ _ => false
  | .or _ _ _ => false
  | .and _ _ _ => false
  | .xor _ _ _ => false
  | .lnot _ _ => false
  | .int _ => true
  | .push _ => true
  | .pop _ => true
  | .yield => false
  | .halt => false

/-- Every byte an instruction may write: what it stores to, the IP cell, and the SP cell if it uses the stack. -/
def writtenCells (i : Instr) (s : State) : List Word :=
  (storedWords i s).flatMap cells ++ regCells .ip ++ (if usesStack i then regCells .sp else [])

/-- The three-address instructions, the ones that read two source words. -/
def isThreeAddress (i : Instr) : Bool :=
  match instrOpcode i with
  | .add | .sub | .mul | .div | .mod | .or | .and | .xor => true
  | .brEq | .storeImm | .copy | .lnot | .int | .push | .pop | .yield | .halt => false

/-- Whether an instruction's cycle has the point `p` at which a key store can land (R68, R61). -/
def hasPoint (p : KeyPoint) (i : Instr) : Bool :=
  match p with
  | .afterFetch => true
  | .betweenSources => isThreeAddress i
  | .beforeResult => isThreeAddress i || [Opcode.copy, .lnot, .pop].contains (instrOpcode i)

/-- A list of words has the one at the top of memory (R53). -/
def atTop (ws : List Word) : Bool := ws.contains 0xFFFF

/-- Check 4 of R175: an *addr* operand or the stack address is `0xFFFF`. -/
def addressFault (i : Instr) (s : State) : Option FaultReason :=
  if atTop (storedWords i s ++ loadedWords i s) then some .addressOutOfRange else none

/-- Check 5 of R175, for `/` and `m`: the divisor, read after IP <- next (R68), is zero. -/
def divisorFault (s2 : Word) (s : State) : Option FaultReason :=
  if (s.advance 7).word s2 = 0 then some .arithmeticFault else none

/-- Checks 3 to 5 of R175, in their order, for an instruction whose bytes are all there. -/
def executeFault (i : Instr) (s : State) : Option FaultReason :=
  match i with
  | .int n => if 3 < n.toNat then some .invalidVector else addressFault (.int n) s
  | .div d s1 s2 => (addressFault (.div d s1 s2) s).or (divisorFault s2 s)
  | .mod d s1 s2 => (addressFault (.mod d s1 s2) s).or (divisorFault s2 s)
  | .brEq a b t => addressFault (.brEq a b t) s
  | .storeImm d v => addressFault (.storeImm d v) s
  | .copy d src => addressFault (.copy d src) s
  | .add d s1 s2 => addressFault (.add d s1 s2) s
  | .sub d s1 s2 => addressFault (.sub d s1 s2) s
  | .mul d s1 s2 => addressFault (.mul d s1 s2) s
  | .or d s1 s2 => addressFault (.or d s1 s2) s
  | .and d s1 s2 => addressFault (.and d s1 s2) s
  | .xor d s1 s2 => addressFault (.xor d s1 s2) s
  | .lnot d src => addressFault (.lnot d src) s
  | .push v => addressFault (.push v) s
  | .pop d => addressFault (.pop d) s
  | .yield => addressFault .yield s
  | .halt => addressFault .halt s

/-- The five checks of R175 in their order: the fault that a cycle in `s` ends in, if any. -/
def firstFault (s : State) : Option FaultReason :=
  match opcodeOfByte (s.byte (s.reg .ip)) with
  | none => some .unrecognizedOpcode
  | some o =>
    if 0xFFFF < (s.reg .ip).toNat + opcodeLength o - 1 then some .addressOutOfRange
    else match fetch s with
      | .ok i => executeFault i s
      | .error _ => none

/-- The 17 legal opcode bytes, as R89 lists them. -/
def legalOpcodeBytes : List Byte :=
  [0x2A, 0x2B, 0x2D, 0x2F, 0x3D, 0x3F, 0x48, 0x50, 0x61, 0x68, 0x69, 0x6C, 0x6D, 0x6E, 0x6F, 0x70, 0x78]

/-- Operand word `k` of the instruction at IP, by the formula of R82. -/
def operandWord (s : State) (k : Nat) : Word :=
  BitVec.ofNat 16 ((s.byte (s.reg .ip + BitVec.ofNat 16 (1 + 2 * k))).toNat
    + 256 * (s.byte (s.reg .ip + BitVec.ofNat 16 (2 + 2 * k))).toNat)

/-- The instruction with opcode `o` whose operand words are `w 0`, `w 1`, `w 2`, or whose operand byte is `n` (R84, R86). -/
def withOperands (o : Opcode) (w : Nat → Word) (n : Byte) : Instr :=
  match o with
  | .brEq => .brEq (w 0) (w 1) (w 2)
  | .storeImm => .storeImm (w 0) (w 1)
  | .copy => .copy (w 0) (w 1)
  | .add => .add (w 0) (w 1) (w 2)
  | .sub => .sub (w 0) (w 1) (w 2)
  | .mul => .mul (w 0) (w 1) (w 2)
  | .div => .div (w 0) (w 1) (w 2)
  | .mod => .mod (w 0) (w 1) (w 2)
  | .or => .or (w 0) (w 1) (w 2)
  | .and => .and (w 0) (w 1) (w 2)
  | .xor => .xor (w 0) (w 1) (w 2)
  | .lnot => .lnot (w 0) (w 1)
  | .int => .int n
  | .push => .push (w 0)
  | .pop => .pop (w 0)
  | .yield => .yield
  | .halt => .halt

/-- Pushing words one after another, the first one first. -/
def pushAll (s : State) : List Word → Except FaultReason State
  | [] => .ok s
  | v :: vs =>
    match push s v with
    | .ok t => pushAll t vs
    | .error r => .error r

end Sys2Proof.Machine
end

