-- ==== Sys2Proof/Certificates/Slice0/Obligations.lean ====
section
/-! DEFINITION. The statements for the provers. In this machine every register is a cell of memory (R20), so what
`SameBytesExcept` says of bytes it says of every register, FL and the vectors among them; the IP cell is the program counter. -/

open Sys2Proof Sys2Proof.Machine

/-! ## Encoding -/

/-- Decoding the bytes of any instruction, with anything after them, gives the instruction and what came after:
spec/30_encoding.md sections 1 to 3 (R80 to R87). -/
def Obligations.DecodeOfEncodeIsTheInstruction : Prop :=
  ∀ (i : Instr) (rest : List Byte), decode (encode i ++ rest) = .ok (i, rest)

/-- The other way: bytes that decode are the encoding of what they decode to, so each byte string has one meaning. -/
def Obligations.DecodedBytesAreTheEncoding : Prop :=
  ∀ (bs rest : List Byte) (i : Instr), decode bs = .ok (i, rest) → bs = encode i ++ rest

/-- Words written out from R81 and R86 decode to what they stand for. -/
def Obligations.WrittenOutWordsDecode : Prop :=
  decode [0x3F, 0x03, 0x00, 0x00, 0x00, 0x50, 0x00] = .ok (.brEq 3 0 0x0050, []) ∧
  decode [0x6C, 0x35, 0x00, 0x02, 0x00] = .ok (.copy 0x0035 2, []) ∧
  decode [0x2D, 0x02, 0x00, 0x02, 0x00, 0x04, 0x00] = .ok (.sub 2 2 4, []) ∧
  decode [0x69, 0x02] = .ok (.int 2, []) ∧
  decode [0x50, 0x0E, 0x00] = .ok (.pop 0x000E, []) ∧
  decode [0x48] = .ok (.halt, [])

/-- The legal opcode bytes are the 17 that R89 lists, the other 239 are refused by name whatever follows. -/
def Obligations.IllegalOpcodeBytesAreTheOthers : Prop :=
  (∀ b : Byte, (∃ o, opcodeOfByte b = some o) ↔ b ∈ legalOpcodeBytes) ∧
  (∀ b : Byte, b ∉ legalOpcodeBytes → ∀ bs, decode (b :: bs) = .error (.unrecognizedOpcode b)) ∧
  ((List.range 256).filter fun n => (opcodeOfByte (BitVec.ofNat 8 n)).isNone).length = 239

/-- R82: the operand words of the fetched instruction are the little-endian words after its opcode byte (and the operand
of `i` is the byte after it), for every opcode and every place where the instruction fits. -/
def Obligations.OperandWordsFollowTheOpcode : Prop :=
  ∀ (s : State) (o : Opcode), opcodeOfByte (s.byte (s.reg .ip)) = some o →
    (s.reg .ip).toNat + opcodeLength o ≤ 0x10000 →
    fetch s = .ok (withOperands o (operandWord s) (s.byte (s.reg .ip + 1)))

/-- R54: an instruction that runs past `0xFFFF` faults and writes nothing; one that ends exactly there is legal and its `next` is
0; a byte that is no opcode is found first, wherever it stands. -/
def Obligations.InstructionPastTheTopFaults : Prop :=
  ∀ s : State,
    (∀ o, opcodeOfByte (s.byte (s.reg .ip)) = some o →
      (0xFFFF < (s.reg .ip).toNat + opcodeLength o - 1 → cycle s = .next (s.takeFault .addressOutOfRange)) ∧
      ((s.reg .ip).toNat + opcodeLength o - 1 ≤ 0xFFFF → ∃ i, fetch s = .ok i ∧ instrOpcode i = o) ∧
      ((s.reg .ip).toNat + opcodeLength o = 0x10000 → s.nextIp (opcodeLength o) = 0)) ∧
    (opcodeOfByte (s.byte (s.reg .ip)) = none → cycle s = .next (s.takeFault .unrecognizedOpcode))

/-- R162: a byte at IP that is none of the 17 ends the run with failure; memory, IP among it, is as it was; no step follows. -/
def Obligations.UnrecognizedOpcodeEndsTheRun : Prop :=
  ∀ s : State, s.status = .running → ((takeTurn s).1 = .cpu ∨ ∃ p key, (takeTurn s).1 = .cpuWithKey p key) →
    s.byte (s.reg .ip) ∉ legalOpcodeBytes →
    ∃ t, step s = .next t ∧ t.status = .faulted .unrecognizedOpcode ∧ t.mem = s.mem ∧ t.reg .ip = s.reg .ip ∧
      exitCode t.status = some 1 ∧ exitCode .halted ≠ some 1 ∧ ∀ u, step t ≠ .next u

/-- When it is the CPU's turn and the bytes at IP decode to an instruction, the step is exec of that instruction, with the turn
taken off the schedule: R88, R193. That a cycle with a key is a plain cycle where the Keyboard does not poll is the model's choice
(notes/assumptions/4.md). -/
def Obligations.StepRunsTheDecodedInstruction : Prop :=
  ∀ (s : State) (i : Instr) (rest : List Byte), s.status = .running → decode (fetchBytes s) = .ok (i, rest) →
    (s.schedule = [] → step s = exec i s) ∧
    (∀ turns, s.schedule = .cpu :: turns → step s = exec i { s with schedule := turns }) ∧
    (∀ p key turns, s.schedule = .cpuWithKey p key :: turns → s.kbdReq ≠ .enabled →
      step s = exec i { s with schedule := turns })

/-- Placing an instruction's bits where the next step fetches makes the next step run exactly it (this model's own
`withFetchWord`, notes/assumptions/2.md). -/
def Obligations.FetchWordIsRunByTheNextStep : Prop :=
  ∀ (s : State) (nbits w : Nat) (i : Instr), s.mem.wf = true → decodeTableWord nbits w = some i →
    fetch (s.withFetchWord nbits w) = .ok i ∧
    step (s.withFetchWord nbits w) = exec i (takeTurn (s.withFetchWord nbits w)).2

/-! ## Memory and registers -/

/-- R50: bits 7..0 of a word stand at its address and bits 15..8 one above; the byte at `a` is the low half of the word at `a` and
the high half of the word at `a - 1`; storing a word changes its two bytes alone. -/
def Obligations.WordsAreLittleEndian : Prop :=
  ∀ (s : State) (a v : Word), s.mem.wf = true → a ≠ 0xFFFF →
    (s.setWord a v).byte a = v.extractLsb' 0 8 ∧ (s.setWord a v).byte (a + 1) = v.extractLsb' 8 8 ∧
    (s.setWord a v).word a = v ∧ SameBytesExcept (cells a) s (s.setWord a v) ∧
    (s.word a).extractLsb' 0 8 = s.byte a ∧ (a ≠ 0 → (s.word (a - 1)).extractLsb' 8 8 = s.byte a) ∧
    (s.setReg .fl 0x8000).byte 0x000C = 0x00 ∧ (s.setReg .fl 0x8000).byte 0x000D = 0x80

/-- R53: a word access at `0xFFFF` does not wrap but faults, and the instruction or the `raise` that attempts it makes no memory
write at all. (`i N` with `N` above 3 attempts no push.) -/
def Obligations.WordAccessAtTheTopFaults : Prop :=
  ∀ s : State,
    readWord s 0xFFFF = .error .addressOutOfRange ∧ (∀ v, writeWord s 0xFFFF v = .error .addressOutOfRange) ∧
    (∀ i : Instr, (0xFFFF#16 ∈ storedWords i s ∨ 0xFFFF#16 ∈ loadedWords i s) → (∀ n, i = .int n → n.toNat < 4) →
      ∃ t, exec i s = .next t ∧ t.status = .faulted .addressOutOfRange ∧ t.mem = s.mem) ∧
    (s.pushAddr = 0xFFFF → ∀ v, raise s v = .error .addressOutOfRange)

/-- The register map of spec/10_state.md section 1 (R21): the addresses, that a register reads back what was written to it, and
that no other register and no other byte changes. -/
def Obligations.RegistersAreSeparateCells : Prop :=
  (regAddr .r0 = 0x0000 ∧ regAddr .r1 = 0x0002 ∧ regAddr .r2 = 0x0004 ∧ regAddr .r4 = 0x0006 ∧ regAddr .sp = 0x0008 ∧
    regAddr .sb = 0x000A ∧ regAddr .fl = 0x000C ∧ regAddr .ip = 0x000E ∧ regAddr (.int 0) = 0x0010 ∧
    regAddr (.int 1) = 0x0012 ∧ regAddr (.int 2) = 0x0014 ∧ regAddr (.int 3) = 0x0016 ∧ kbAddr = 0x0018) ∧
  ∀ (s : State) (r : Reg) (v : Word), s.mem.wf = true →
    (s.setReg r v).reg r = v ∧ (∀ r', r' ≠ r → (s.setReg r v).reg r' = s.reg r') ∧ (s.setReg r v).kb = s.kb ∧
    SameBytesExcept (regCells r) s (s.setReg r v)

/-- Every instruction that reads a source word reads it after IP <- next (spec/20_memory.md section 11, R68), also where the word
covers one byte or both of the IP cell: `State.sourceWord` says what stands there, and this what each instruction does with it. -/
def Obligations.SourcesAreReadAfterIpAdvances : Prop :=
  ∀ (s : State) (d s1 s2 : Word), s.Inv → d ≠ 0xFFFF → s1 ≠ 0xFFFF → s2 ≠ 0xFFFF →
    (∀ len a, (s.advance len).word a = s.sourceWord len a) ∧
    (∃ t, exec (.copy d s1) s = .next t ∧ t.word d = s.sourceWord 5 s1) ∧
    (∃ t, exec (.lnot d s1) s = .next t ∧ t.word d = if s.sourceWord 5 s1 = 0 then 1 else 0) ∧
    (s.popAddr ≠ 0xFFFF → ∃ t, exec (.pop d) s = .next t ∧ t.word d = s.sourceWord 3 s.popAddr) ∧
    (∀ p ∈ [(Instr.add, fun a b : Word => a + b), (Instr.sub, fun a b => a - b), (Instr.mul, fun a b => a * b),
        (Instr.div, fun a b => a / b), (Instr.mod, fun a b => a % b), (Instr.or, fun a b => a ||| b),
        (Instr.and, fun a b => a &&& b), (Instr.xor, fun a b => a ^^^ b)],
      ((p.1 = Instr.div ∨ p.1 = Instr.mod) → s.sourceWord 7 s2 ≠ 0) →
      ∃ t, exec (p.1 d s1 s2) s = .next t ∧ t.word d = p.2 (s.sourceWord 7 s1) (s.sourceWord 7 s2)) ∧
    (s.sourceWord 7 s2 = 0 → ∀ mk ∈ [Instr.div, Instr.mod], exec (mk d s1 s2) s = .next (s.takeFault .arithmeticFault))

/-! ## Instructions: results and frames -/

/-- `?` (spec/40_compare_branch.md): the literals are compared, IP is written once, nothing else is written. -/
def Obligations.BranchComparesLiterals : Prop :=
  ∀ (s : State) (a b target : Word), s.mem.wf = true → ∃ t, exec (.brEq a b target) s = .next t ∧
    (a = b → t.reg .ip = target) ∧ (a ≠ b → t.reg .ip = s.reg .ip + 7) ∧
    SameBytesExcept (regCells .ip) s t ∧ SameControl s t

/-- `=` (spec/41_store_copy.md): the word at `D` is `V`; IP is `next` unless the store covers it; every other byte is as it was. -/
def Obligations.StoreImmediateWritesTheLiteral : Prop :=
  ∀ (s : State) (d v : Word), s.mem.wf = true → d ≠ 0xFFFF → ∃ t, exec (.storeImm d v) s = .next t ∧
    t.word d = v ∧ (apartReg d .ip → t.reg .ip = s.reg .ip + 5) ∧
    SameBytesExcept (cells d) (s.advance 5) t ∧ SameBytesExcept (cells d ++ regCells .ip) s t ∧ SameControl s t

/-- `l` (spec/41_store_copy.md): the word at `D` is the whole word that stood at `S`, even where the two overlap; a source that is
the IP cell reads the address of the following instruction. -/
def Obligations.CopyMovesTheWord : Prop :=
  ∀ (s : State) (d src : Word), s.Inv → d ≠ 0xFFFF → src ≠ 0xFFFF → ∃ t, exec (.copy d src) s = .next t ∧
    t.word d = (s.advance 5).word src ∧ (apartReg src .ip → t.word d = s.word src) ∧
    (src = 0x000E → t.word d = s.reg .ip + 5) ∧ (apartReg d .ip → t.reg .ip = s.reg .ip + 5) ∧
    SameBytesExcept (cells d) (s.advance 5) t ∧ SameBytesExcept (cells d ++ regCells .ip) s t ∧ SameControl s t

/-- `+`, `-` and `*` (spec/42_arith_logic.md): the exact result modulo 2^16, no flag, nothing written but `D` and IP. -/
def Obligations.AddSubMulAreModulo65536 : Prop :=
  ∀ (s : State) (d s1 s2 : Word), s.Inv → d ≠ 0xFFFF → s1 ≠ 0xFFFF → s2 ≠ 0xFFFF →
    ∃ ta ts tm, exec (.add d s1 s2) s = .next ta ∧ exec (.sub d s1 s2) s = .next ts ∧ exec (.mul d s1 s2) s = .next tm ∧
      (ta.word d).toNat = (((s.advance 7).word s1).toNat + ((s.advance 7).word s2).toNat) % 65536 ∧
      ((ts.word d).toNat : Int) = (((s.advance 7).word s1).toNat - ((s.advance 7).word s2).toNat : Int) % 65536 ∧
      (tm.word d).toNat = (((s.advance 7).word s1).toNat * ((s.advance 7).word s2).toNat) % 65536 ∧
      ∀ t ∈ [ta, ts, tm], (apartReg d .ip → t.reg .ip = s.reg .ip + 7) ∧ SameBytesExcept (cells d) (s.advance 7) t ∧
        SameBytesExcept (cells d ++ regCells .ip) s t ∧ SameControl s t

/-- `o`, `a` and `x` (spec/42_arith_logic.md): bit by bit on the 16 bits, no flag, nothing written but `D` and IP. -/
def Obligations.LogicOperatorsAreBitwise : Prop :=
  ∀ (s : State) (d s1 s2 : Word), s.Inv → d ≠ 0xFFFF → s1 ≠ 0xFFFF → s2 ≠ 0xFFFF →
    ∃ t1 t2 t3, exec (.or d s1 s2) s = .next t1 ∧ exec (.and d s1 s2) s = .next t2 ∧ exec (.xor d s1 s2) s = .next t3 ∧
      (∀ k < 16,
        (t1.word d).getLsbD k = (((s.advance 7).word s1).getLsbD k || ((s.advance 7).word s2).getLsbD k) ∧
        (t2.word d).getLsbD k = (((s.advance 7).word s1).getLsbD k && ((s.advance 7).word s2).getLsbD k) ∧
        (t3.word d).getLsbD k = (((s.advance 7).word s1).getLsbD k ^^ ((s.advance 7).word s2).getLsbD k)) ∧
      ∀ t ∈ [t1, t2, t3], (apartReg d .ip → t.reg .ip = s.reg .ip + 7) ∧ SameBytesExcept (cells d) (s.advance 7) t ∧
        SameBytesExcept (cells d ++ regCells .ip) s t ∧ SameControl s t

/-- `/` and `m` (spec/42_arith_logic.md) on a divisor that is not zero: the unsigned quotient and remainder, and
`(a div b) * b + (a rem b) = a`. -/
def Obligations.DivideAndModuloAreUnsigned : Prop :=
  ∀ (s : State) (d s1 s2 : Word), s.Inv → d ≠ 0xFFFF → s1 ≠ 0xFFFF → s2 ≠ 0xFFFF → (s.advance 7).word s2 ≠ 0 →
    ∃ tq tr, exec (.div d s1 s2) s = .next tq ∧ exec (.mod d s1 s2) s = .next tr ∧
      (tq.word d).toNat = ((s.advance 7).word s1).toNat / ((s.advance 7).word s2).toNat ∧
      (tr.word d).toNat < ((s.advance 7).word s2).toNat ∧
      (tq.word d).toNat * ((s.advance 7).word s2).toNat + (tr.word d).toNat = ((s.advance 7).word s1).toNat ∧
      ∀ t ∈ [tq, tr], (apartReg d .ip → t.reg .ip = s.reg .ip + 7) ∧ SameBytesExcept (cells d) (s.advance 7) t ∧
        SameBytesExcept (cells d ++ regCells .ip) s t ∧ SameControl s t

/-- `/` and `m` trap on a zero divisor, read after IP <- next; nothing is written, so IP still addresses the instruction. -/
def Obligations.ZeroDivisorTraps : Prop :=
  ∀ (s : State) (d s1 s2 : Word), s.Inv → d ≠ 0xFFFF → s1 ≠ 0xFFFF → s2 ≠ 0xFFFF → (s.advance 7).word s2 = 0 →
    exec (.div d s1 s2) s = .next (s.takeFault .arithmeticFault) ∧
    exec (.mod d s1 s2) s = .next (s.takeFault .arithmeticFault)

/-- `n` (spec/42_arith_logic.md): 1 for a zero word, else 0. -/
def Obligations.LogicalNotIsATruthValue : Prop :=
  ∀ (s : State) (d src : Word), s.Inv → d ≠ 0xFFFF → src ≠ 0xFFFF → ∃ t, exec (.lnot d src) s = .next t ∧
    ((s.advance 5).word src = 0 → t.word d = 1) ∧ ((s.advance 5).word src ≠ 0 → t.word d = 0) ∧
    (apartReg d .ip → t.reg .ip = s.reg .ip + 5) ∧
    SameBytesExcept (cells d) (s.advance 5) t ∧ SameBytesExcept (cells d ++ regCells .ip) s t ∧ SameControl s t

/-- The race of spec/93_implementation_defined.md U9, both ends of it: while a key store lands between the source reads, the first
source is read from memory without the key and the second from memory with it, in each of the eight three-address
instructions; the store itself survives an arithmetic fault. How an overlap is represented is the model's choice
(notes/assumptions/4.md). -/
def Obligations.OverlappingKeyReachesTheSecondSource : Prop :=
  ∀ (s : State) (key : Byte) (d s1 s2 : Word), s.mem.wf = true → s.kbdReq = .enabled →
    s.overlapKey = some (.betweenSources, key) → d ≠ 0xFFFF → s1 ≠ 0xFFFF → s2 ≠ 0xFFFF →
    (∀ p ∈ [(Instr.add, fun a b : Word => a + b), (Instr.sub, fun a b => a - b), (Instr.mul, fun a b => a * b),
        (Instr.div, fun a b => a / b), (Instr.mod, fun a b => a % b), (Instr.or, fun a b => a ||| b),
        (Instr.and, fun a b => a &&& b), (Instr.xor, fun a b => a ^^^ b)],
      ((p.1 = Instr.div ∨ p.1 = Instr.mod) → ((s.advance 7).setByte kbAddr key).word s2 ≠ 0) →
      ∃ t, exec (p.1 d s1 s2) s = .next t ∧
        t.word d = p.2 ((s.advance 7).word s1) (((s.advance 7).setByte kbAddr key).word s2) ∧
        (kbAddr ∉ cells d → t.kb = key) ∧ SameBytesExcept (cells d ++ regCells .ip ++ [kbAddr]) s t ∧
        t.kbdReq = .latched ∧ t.overlapKey = none ∧ t.status = s.status) ∧
    (((s.advance 7).setByte kbAddr key).word s2 = 0 → ∀ mk ∈ [Instr.div, Instr.mod], ∃ t,
      exec (mk d s1 s2) s = .next t ∧ t.status = .faulted .arithmeticFault ∧ t.kb = key ∧ SameBytesExcept [kbAddr] s t)

/-- A key store that lands after the fetch: the instruction is the one that stood in memory without the key, and all its data accesses
see the key (R61; the model's own `cpuWithKey`, notes/assumptions/4.md). -/
def Obligations.OverlappingKeyAfterTheFetch : Prop :=
  ∀ (s : State) (key : Byte) (turns : List Turn) (i : Instr), s.Inv → s.status = .running →
    s.schedule = .cpuWithKey .afterFetch key :: turns → s.kbdReq = .enabled → fetch s = .ok i →
    step s = exec i (kbdPoll (some key) { s with schedule := turns })

/-- A key store that lands after the reads and before the result is written: a result word that covers KB overwrites the key, though
the request is latched; elsewhere the key stays (R61; the model's own, notes/assumptions/4.md). -/
def Obligations.OverlappingKeyBeforeTheResult : Prop :=
  ∀ (s t : State) (key : Byte) (i : Instr) (d : Word), s.mem.wf = true → s.status = .running → s.kbdReq = .enabled →
    s.overlapKey = some (.beforeResult, key) → hasPoint .beforeResult i = true → storedWords i s = [d] →
    exec i { s with overlapKey := none } = .next t → t.status = .running →
    ∃ u, exec i s = .next u ∧ u.kbdReq = .latched ∧ u.overlapKey = none ∧ u.status = .running ∧
      SameBytesExcept [kbAddr] t u ∧ (kbAddr ∈ cells d → u.kb = t.kb) ∧ (kbAddr ∉ cells d → u.kb = key)

/-- A key store at any point but the first runs exec at the state that holds the pending store, and the step ends in exec's state
with nothing pending; an instruction that goes on has taken the store in. A cycle whose fetch faults ends before the store. The
points, and that the step is this, are the model's own (notes/assumptions/4.md); the race is U9's. -/
def Obligations.OverlappingKeyStepRunsExecAtItsPoint : Prop :=
  ∀ (s : State) (p : KeyPoint) (key : Byte) (turns : List Turn), s.Inv → s.status = .running →
    s.schedule = .cpuWithKey p key :: turns → s.kbdReq = .enabled →
    (∀ i, fetch s = .ok i → p ≠ .afterFetch → hasPoint p i = true →
      ∃ t, exec i { s with schedule := turns, overlapKey := some (p, key) } = .next t ∧
        step s = .next { t with overlapKey := none } ∧
        (t.status = .running → t.overlapKey = none ∧ t.kbdReq = .latched)) ∧
    (∀ r, fetch s = .error r → step s = .next ({ s with schedule := turns }.takeFault r))

/-- THE MODEL'S OWN, DEDUCED in notes/assumptions/4.md: where the cycle has no such point, a key store that overlaps it acts as a
poll right after it, and never lands if the run has ended. (D21 and R174 speak of a store at a boundary, and of an ended run; neither
says this of a store that overlaps a cycle.) -/
def Obligations.OverlappingKeyIsAPollAfterTheCycle : Prop :=
  ∀ (s : State) (p : KeyPoint) (key : Byte) (turns : List Turn) (i : Instr), s.Inv → s.status = .running →
    s.schedule = .cpuWithKey p key :: turns → s.kbdReq = .enabled → fetch s = .ok i → hasPoint p i = false →
    ∃ t, exec i { s with schedule := turns } = .next t ∧
      (t.status = .running → step s = .next (kbdPoll (some key) t)) ∧ (t.status ≠ .running → step s = .next t)

/-! ## The stack and interrupts -/

/-- `p` (spec/43_interrupt_stack.md): SP goes up by 2 and the literal stands at the new `SB - SP`, which is stored last. -/
def Obligations.PushStoresBelowTheTop : Prop :=
  ∀ (s : State) (v : Word), s.mem.wf = true → s.pushAddr ≠ 0xFFFF → ∃ t, exec (.push v) s = .next t ∧
    t.word s.pushAddr = v ∧ (apartReg s.pushAddr .sp → t.reg .sp = s.reg .sp + 2) ∧
    (apartReg s.pushAddr .ip → t.reg .ip = s.reg .ip + 3) ∧
    SameBytesExcept (cells s.pushAddr) ((s.advance 3).setReg .sp (s.reg .sp + 2)) t ∧
    SameBytesExcept (cells s.pushAddr ++ regCells .ip ++ regCells .sp) s t ∧ SameControl s t

/-- `P` (spec/43_interrupt_stack.md): the word at the current `SB - SP` goes to `D`, which is stored last, after SP went down by
2; it is read after IP <- next. -/
def Obligations.PopMovesTheTopOfStack : Prop :=
  ∀ (s : State) (d : Word), s.Inv → s.popAddr ≠ 0xFFFF → d ≠ 0xFFFF → ∃ t, exec (.pop d) s = .next t ∧
    t.word d = (s.advance 3).word s.popAddr ∧ (apartReg s.popAddr .ip → t.word d = s.word s.popAddr) ∧
    (apartReg d .sp → t.reg .sp = s.reg .sp - 2) ∧ (apartReg d .ip → t.reg .ip = s.reg .ip + 3) ∧
    SameBytesExcept (cells d) ((s.advance 3).setReg .sp (s.reg .sp - 2)) t ∧
    SameBytesExcept (cells d ++ regCells .ip ++ regCells .sp) s t ∧ SameControl s t

/-- `raise(v)` (spec/43_interrupt_stack.md, spec/60_exceptions.md section 5; R142, R182): IP becomes the handler's address as it stood
before the push, the old IP stands at the new top of stack, SP goes up by 2, and nothing else changes, FL included. -/
def Obligations.RaiseEntersTheHandler : Prop :=
  ∀ (s : State) (v : Fin 4), s.mem.wf = true → s.pushAddr ≠ 0xFFFF → ∃ t, raise s v = .ok t ∧
    t.reg .ip = s.reg (.int v) ∧ (apartReg s.pushAddr .ip → t.word s.pushAddr = s.reg .ip) ∧
    (apartReg s.pushAddr .sp → t.reg .sp = s.reg .sp + 2) ∧ (apartReg s.pushAddr .fl → t.reg .fl = s.reg .fl) ∧
    SameBytesExcept (cells s.pushAddr ++ regCells .ip ++ regCells .sp) s t ∧ SameControl s t

/-- `i N` (spec/43_interrupt_stack.md) for `N` in 0..3 is that entry with `next` as the saved address, whatever IE is. -/
def Obligations.SoftwareInterruptEntersTheHandler : Prop :=
  ∀ (s : State) (n : Byte) (h : n.toNat < 4), s.mem.wf = true → s.pushAddr ≠ 0xFFFF → ∃ t, exec (.int n) s = .next t ∧
    raise (s.advance 2) ⟨n.toNat, h⟩ = .ok t ∧ t.reg .ip = s.reg (.int ⟨n.toNat, h⟩) ∧
    (apartReg s.pushAddr .ip → t.word s.pushAddr = s.reg .ip + 2) ∧
    (apartReg s.pushAddr .sp → t.reg .sp = s.reg .sp + 2) ∧
    SameBytesExcept (cells s.pushAddr ++ regCells .ip ++ regCells .sp) s t ∧ SameControl s t

/-- `i N` for `N` in 4..255 traps with nothing written, whatever the stack address is. -/
def Obligations.BadVectorTraps : Prop :=
  ∀ (s : State) (n : Byte), 4 ≤ n.toNat → exec (.int n) s = .next (s.takeFault .invalidVector)

/-- Push then pop gives the value back and restores SP; memory differs in the stack word alone (spec/43_interrupt_stack.md, the
stack laws R146 1 and 2). -/
def Obligations.PushThenPopRestores : Prop :=
  ∀ (s : State) (v : Word), s.mem.wf = true → s.pushAddr ≠ 0xFFFF → apartReg s.pushAddr .sp → apartReg s.pushAddr .sb →
    ∃ t u, push s v = .ok t ∧ pop t = .ok (v, u) ∧ t.reg .sp = s.reg .sp + 2 ∧ t.word (t.reg .sb - t.reg .sp) = v ∧
      u.reg .sp = s.reg .sp ∧ SameBytesExcept (cells s.pushAddr) s u

/-- A handler entered by `i N` that does nothing but `P IP` comes back to the instruction after the `i` with SP restored, and
memory differs in the stack word and in IP alone (spec/60_exceptions.md section 6). -/
def Obligations.InterruptReturnRestores : Prop :=
  ∀ (s : State) (n : Byte), n.toNat < 4 → s.Inv → s.pushAddr ≠ 0xFFFF → apartReg s.pushAddr .sp →
    apartReg s.pushAddr .sb → apartReg s.pushAddr .ip →
    ∃ t u, exec (.int n) s = .next t ∧ exec (.pop 0x000E) t = .next u ∧ u.reg .ip = s.reg .ip + 2 ∧
      u.reg .sp = s.reg .sp ∧ SameBytesExcept (cells s.pushAddr ++ regCells .ip) s u

/-- The stack in memory refines a list (spec/43_interrupt_stack.md, the stack laws R146 3 and 4): after pushing `k` words from SP = 0,
word `j` stands at `SB - 2(j+1)`, SP is `2k`, and nothing outside the `k` stack words and SP changed, the word at SB
included. -/
def Obligations.StackHoldsThePushedWords : Prop :=
  ∀ (s : State) (vs : List Word), s.mem.wf = true → s.reg .sp = 0 → 2 * vs.length < 65536 →
    (∀ j < vs.length, s.reg .sb - BitVec.ofNat 16 (2 * (j + 1)) ≠ 0xFFFF ∧
      apartReg (s.reg .sb - BitVec.ofNat 16 (2 * (j + 1))) .sp ∧ apartReg (s.reg .sb - BitVec.ofNat 16 (2 * (j + 1))) .sb) →
    ∃ t, pushAll s vs = .ok t ∧ t.reg .sp = BitVec.ofNat 16 (2 * vs.length) ∧ t.reg .sb = s.reg .sb ∧
      (∀ j (hj : j < vs.length), t.word (s.reg .sb - BitVec.ofNat 16 (2 * (j + 1))) = vs[j]) ∧
      (apartReg (s.reg .sb) .sp → t.word (s.reg .sb) = s.word (s.reg .sb)) ∧
      SameBytesExcept (regCells .sp ++ (List.range vs.length).flatMap fun j =>
        cells (s.reg .sb - BitVec.ofNat 16 (2 * (j + 1)))) s t

/-! ## Yield, halt and the end of a run -/

/-- R160: `h` is the one byte `68`; nothing changes but IP, which goes to the next byte, `0xFFFF` to 0. -/
def Obligations.YieldOnlyAdvances : Prop :=
  decode [0x68] = .ok (.yield, []) ∧
  ∀ s : State, s.mem.wf = true → ∃ t, exec .yield s = .next t ∧ t.reg .ip = s.reg .ip + 1 ∧
    (s.reg .ip = 0xFFFF → t.reg .ip = 0) ∧ SameBytesExcept (regCells .ip) s t ∧ SameControl s t

/-- `H` (spec/44_yield_halt.md) ends the run with success; IP is `next`; no step follows. -/
def Obligations.HaltEndsTheRun : Prop :=
  ∀ s : State, s.mem.wf = true → ∃ t, exec .halt s = .next t ∧ t.status = .halted ∧ exitCode t.status = some 0 ∧
    t.reg .ip = s.reg .ip + 1 ∧ SameBytesExcept (regCells .ip) s t ∧ t.timerReq = s.timerReq ∧ t.kbdReq = s.kbdReq ∧
    t.schedule = s.schedule ∧ t.overlapKey = s.overlapKey ∧ step t = .fault .runHalted

/-- Only an `H` that the CPU fetches halts the run (spec/10_state.md section 8, R32). -/
def Obligations.OnlyHaltHalts : Prop :=
  ∀ s t : State, step s = .next t → t.status = .halted →
    fetch s = .ok .halt ∧ ((takeTurn s).1 = .cpu ∨ ∃ p key, (takeTurn s).1 = .cpuWithKey p key)

/-- R174: once the run has ended no agent takes a step. -/
def Obligations.EndedRunsTakeNoStep : Prop :=
  ∀ s : State, s.status ≠ .running → (∀ t, step s ≠ .next t) ∧ ∀ n t, Host.Core.run core (n + 1) s ≠ .next t

/-- The codes of spec/60_exceptions.md section 1 (R171, R173): success is 0, every fault is the one failure code, which is not 0. -/
def Obligations.ExitCodesTellSuccessFromFailure : Prop :=
  exitCode .running = none ∧ exitCode .halted = some 0 ∧
  (∀ r, exitCode (.faulted r) = some 1 ∧ exitCode (.faulted r) ≠ exitCode .halted) ∧
  [FaultReason.unrecognizedOpcode, .arithmeticFault, .addressOutOfRange, .invalidVector].map faultCode = [1, 2, 3, 4]

/-! ## Faults -/

/-- R172: a cycle, a `raise`, and a step of any agent that ends in a fault leaves memory as it was before the transaction, the IP cell
among it, and no later instruction starts. (The turn in which the model's own overlapping key store lands is
`FaultWithAKeyChangesKbAlone`.) -/
def Obligations.FaultsWriteNothing : Prop :=
  ∀ (s t : State) (r : FaultReason), s.Inv → s.status = .running → t.status = .faulted r →
    (cycle s = .next t → t.mem = s.mem ∧ t.reg .ip = s.reg .ip ∧ ∀ u, step t ≠ .next u) ∧
    ((∀ p key, (takeTurn s).1 ≠ .cpuWithKey p key) → step s = .next t →
      t.mem = s.mem ∧ t.reg .ip = s.reg .ip ∧ ∀ u, step t ≠ .next u)

/-- A faulting step changes the run status alone; that timer_req and kbd_req survive a faulting `raise` is DEDUCED
(notes/assumptions/5.md). -/
def Obligations.FaultKeepsAllButTheStatus : Prop :=
  ∀ (s t : State) (r : FaultReason), s.Inv → (∀ p key, (takeTurn s).1 ≠ .cpuWithKey p key) → step s = .next t →
    t.status = .faulted r → t = (takeTurn s).2.takeFault r

/-- The model's own (notes/assumptions/4.md and 5.md): a key store that overlaps a faulting cycle is no write of it, so the byte KB and
kbd_req are as before or as the store leaves them, by the point where it was to land, and all else is as before. -/
def Obligations.FaultWithAKeyChangesKbAlone : Prop :=
  ∀ (s t : State) (r : FaultReason) (p : KeyPoint) (key : Byte) (turns : List Turn), s.Inv →
    s.schedule = .cpuWithKey p key :: turns → step s = .next t → t.status = .faulted r →
    SameBytesExcept [kbAddr] s t ∧ t.timerReq = s.timerReq ∧ t.schedule = turns ∧ t.overlapKey = none ∧
    ((t.kb = s.kb ∧ t.kbdReq = s.kbdReq) ∨ (s.kbdReq = .enabled ∧ t.kb = key ∧ t.kbdReq = .latched)) ∧
    (p = .afterFetch → s.kbdReq = .enabled → (∃ i, fetch s = .ok i) → t.kb = key ∧ t.kbdReq = .latched) ∧
    (p = .betweenSources → s.kbdReq = .enabled → r = .arithmeticFault → t.kb = key ∧ t.kbdReq = .latched) ∧
    (p = .betweenSources → r ≠ .arithmeticFault → t.kb = s.kb ∧ t.kbdReq = s.kbdReq) ∧
    (p = .beforeResult → t.kb = s.kb ∧ t.kbdReq = s.kbdReq)

/-- R175: the first check that fails names the fault, in the order opcode, instruction bytes, vector, data addresses, divisor;
where none fails the cycle completes; the one fault an asynchronous `raise` can end in is `AddressOutOfRange`; and after a fault no agent
takes a step, so a request that waits is never delivered. -/
def Obligations.FirstFailingCheckNamesTheFault : Prop :=
  ∀ s : State, s.Inv → s.status = .running →
    (∀ r, firstFault s = some r → cycle s = .next (s.takeFault r)) ∧
    (firstFault s = none → ∃ t, cycle s = .next t ∧ (t.status = .running ∨ t.status = .halted)) ∧
    (∀ v r, raise s v = .error r → r = .addressOutOfRange) ∧
    (s.pushAddr = 0xFFFF → s.timerReq = .armed →
      ∃ t, timerTurn s = .next t ∧ t.status = .faulted .addressOutOfRange ∧ t.mem = s.mem) ∧
    (s.pushAddr = 0xFFFF → s.kbdReq = .latched → ∀ input,
      ∃ t, keyboardTurn input s = .next t ∧ t.status = .faulted .addressOutOfRange ∧ t.mem = s.mem) ∧
    (∀ t r, cycle s = .next t → t.status = .faulted r → ∀ u, step t ≠ .next u)

/-! ## Whole-machine rules -/

/-- The frame of all 17 instructions at once: no byte changes outside the words the instruction stores to, the IP cell, and the SP cell
of `i`, `p` and `P`; nothing outside memory changes but the status of `H` and of a fault. -/
def Obligations.EveryInstructionKeepsItsFrame : Prop :=
  ∀ (i : Instr) (s t : State), s.overlapKey = none → exec i s = .next t →
    SameBytesExcept (writtenCells i s) s t ∧ t.timerReq = s.timerReq ∧ t.kbdReq = s.kbdReq ∧
    t.schedule = s.schedule ∧ t.overlapKey = none ∧
    (t.status = s.status ∨ (i = .halt ∧ t.status = .halted) ∨ ∃ r, t = s.takeFault r)

/-- R25: no instruction tests a bit of FL or changes one as a side effect. Two states that differ in FL alone end alike, each with its
own FL, under every instruction none of whose data words covers the FL cell; `raise` keeps FL; FL is plain storage, IE is bit
7 of the byte at `0x000D` and CY bit 6, and the test of IE is the mask `0x8000`. -/
def Obligations.FlagsAreNeverASideEffect : Prop :=
  ∀ (s : State) (v : Word), s.Inv →
    (∀ i : Instr, (∀ a ∈ storedWords i s ++ loadedWords i s, apartReg a .fl) →
      ∃ t t', exec i s = .next t ∧ exec i (s.setReg .fl v) = .next t' ∧ t.reg .fl = s.reg .fl ∧ t'.reg .fl = v ∧
        SameBytesExcept (regCells .fl) t t' ∧ SameControl t t') ∧
    (∀ n t, apartReg s.pushAddr .fl → raise s n = .ok t → t.reg .fl = s.reg .fl) ∧
    (s.setReg .fl v).reg .fl = v ∧ s.interruptEnable = ((s.reg .fl &&& 0x8000) != 0) ∧
    s.interruptEnable = (s.byte 0x000D).getLsbD 7 ∧ s.carry = (s.byte 0x000D).getLsbD 6

/-- Every step, of every agent, keeps the invariant: memory in canonical form and inside the address space, no key store left in
progress. -/
def Obligations.StepKeepsTheInvariant : Prop :=
  ∀ s t : State, s.Inv → step s = .next t → t.Inv

/-- The reset state meets the invariant. -/
def Obligations.ResetMeetsTheInvariant : Prop := State.reset.Inv

/-- Every machine created with an image meets the invariant. -/
def Obligations.BootMeetsTheInvariant : Prop :=
  ∀ (img : List Byte) (turns : List Turn) (s : State), State.boot img turns = .next s → s.Inv

/-! ## The agents -/

/-- R177: the Timer's two steps. -/
def Obligations.TimerTestsThenDelivers : Prop :=
  ∀ (s : State) (turns : List Turn), s.status = .running → s.schedule = .timer :: turns →
    (s.timerReq = .idle → (s.reg .fl &&& 0x8000) ≠ 0 → step s = .next { s with schedule := turns, timerReq := .armed }) ∧
    (s.timerReq = .idle → (s.reg .fl &&& 0x8000) = 0 → step s = .next { s with schedule := turns }) ∧
    (s.timerReq = .armed → ∀ t, raise { s with schedule := turns } 0 = .ok t → step s = .next { t with timerReq := .idle })

/-- R178: the Keyboard's three steps; a poll stores one byte and touches no other. -/
def Obligations.KeyboardTestsPollsThenDelivers : Prop :=
  ∀ (s : State) (turns : List Turn) (input : Option Byte), s.mem.wf = true → s.status = .running →
    s.schedule = .keyboard input :: turns →
    (s.kbdReq = .idle → (s.reg .fl &&& 0x8000) ≠ 0 → step s = .next { s with schedule := turns, kbdReq := .enabled }) ∧
    (s.kbdReq = .idle → (s.reg .fl &&& 0x8000) = 0 → step s = .next { s with schedule := turns }) ∧
    (s.kbdReq = .enabled → input = none → step s = .next { s with schedule := turns, kbdReq := .idle }) ∧
    (s.kbdReq = .enabled → ∀ key, input = some key → ∃ t, step s = .next t ∧ t.kb = key ∧ t.kbdReq = .latched ∧
      SameBytesExcept [kbAddr] s t ∧ t.status = .running ∧ t.timerReq = s.timerReq ∧ t.schedule = turns ∧
      t.overlapKey = s.overlapKey) ∧
    (s.kbdReq = .latched → ∀ t, raise { s with schedule := turns } 1 = .ok t → step s = .next { t with kbdReq := .idle })

/-- A delivery whose push would store at `0xFFFF` ends the run and changes nothing else: that the request stays is DEDUCED
(notes/assumptions/5.md); the fault is R175's. -/
def Obligations.FaultingDeliveryKeepsTheRequest : Prop :=
  ∀ (s : State) (turns : List Turn), s.status = .running → s.pushAddr = 0xFFFF →
    (s.schedule = .timer :: turns → s.timerReq = .armed →
      step s = .next ({ s with schedule := turns }.takeFault .addressOutOfRange)) ∧
    (∀ input, s.schedule = .keyboard input :: turns → s.kbdReq = .latched →
      step s = .next ({ s with schedule := turns }.takeFault .addressOutOfRange))

/-- No request leaves Idle but by its own agent's test of a set IE bit; with IE clear an Idle Keyboard's turn changes no memory,
whatever the input (spec/60_exceptions.md section 3, R177 to R179). -/
def Obligations.OnlyTheIeTestArmsARequest : Prop :=
  ∀ s t : State, step s = .next t →
    (s.timerReq = .idle → t.timerReq ≠ .idle → (s.reg .fl &&& 0x8000) ≠ 0 ∧ (takeTurn s).1 = .timer) ∧
    (s.kbdReq = .idle → t.kbdReq ≠ .idle → (s.reg .fl &&& 0x8000) ≠ 0 ∧ ∃ input, (takeTurn s).1 = .keyboard input) ∧
    (s.kbdReq = .idle → (∃ input, (takeTurn s).1 = .keyboard input) → (s.reg .fl &&& 0x8000) = 0 →
      t.kbdReq = .idle ∧ t.mem = s.mem)

/-- Clearing IE does not stop a request already armed (spec/60_exceptions.md section 3, R179): after `= FL 0` the Timer still enters
its handler. -/
def Obligations.ArmedTimerOutlivesClearedIe : Prop :=
  ∀ s : State, s.mem.wf = true → s.timerReq = .armed → s.pushAddr ≠ 0xFFFF →
    ∃ t u, exec (.storeImm 0x000C 0) s = .next t ∧ t.interruptEnable = false ∧ t.timerReq = .armed ∧
      timerTurn t = .next u ∧ u.reg .ip = s.reg (.int 0) ∧ u.timerReq = .idle ∧
      (apartReg s.pushAddr .ip → u.word s.pushAddr = s.reg .ip + 5)

/-- Between an IE test and its delivery any number of boundaries that IE_STALENESS admits (D20: any number) may lie, whatever the other
agents do meanwhile, and the delivery then takes place whatever IE is (spec/60_exceptions.md section 3, R179). -/
def Obligations.ArmedRequestOutlivesAnyWait : Prop :=
  ∀ (s t : State) (waiting rest : List Turn), s.Inv → s.schedule = waiting ++ rest → stalenessAdmits waiting.length →
    Host.Core.run core waiting.length s = .next t → t.status = .running →
    (s.timerReq = .armed → .timer ∉ waiting → t.timerReq = .armed ∧
      ∀ turns, rest = .timer :: turns → t.pushAddr ≠ 0xFFFF →
        ∃ u, step t = .next u ∧ u.reg .ip = t.reg (.int 0) ∧ u.timerReq = .idle) ∧
    (s.kbdReq = .latched → (∀ input, .keyboard input ∉ waiting) → t.kbdReq = .latched ∧
      ∀ input turns, rest = .keyboard input :: turns → t.pushAddr ≠ 0xFFFF →
        ∃ u, step t = .next u ∧ u.reg .ip = t.reg (.int 1) ∧ u.kbdReq = .idle)

/-- No priority, and deliveries in a row nest (spec/60_exceptions.md section 4, R181): with both requests ready either order of the turns
is taken, and the second delivery saves the first handler's address. -/
def Obligations.DeliveriesInARowNest : Prop :=
  ∀ (s : State) (input : Option Byte) (turns : List Turn), s.mem.wf = true → s.status = .running →
    s.timerReq = .armed → s.kbdReq = .latched →
    (∀ a ∈ [s.pushAddr, s.pushAddr - 2], a ≠ 0xFFFF ∧
      ∀ r ∈ [Reg.sp, Reg.sb, Reg.fl, Reg.ip, Reg.int 0, Reg.int 1], apartReg a r) →
    (s.schedule = .timer :: .keyboard input :: turns → ∃ t, Host.Core.run core 2 s = .next t ∧
      t.word s.pushAddr = s.reg .ip ∧ t.word (s.pushAddr - 2) = s.reg (.int 0) ∧ t.reg .ip = s.reg (.int 1) ∧
      t.reg .sp = s.reg .sp + 4 ∧ t.reg .fl = s.reg .fl ∧ t.timerReq = .idle ∧ t.kbdReq = .idle) ∧
    (s.schedule = .keyboard input :: .timer :: turns → ∃ t, Host.Core.run core 2 s = .next t ∧
      t.word s.pushAddr = s.reg .ip ∧ t.word (s.pushAddr - 2) = s.reg (.int 1) ∧ t.reg .ip = s.reg (.int 0) ∧
      t.reg .sp = s.reg .sp + 4 ∧ t.reg .fl = s.reg .fl ∧ t.timerReq = .idle ∧ t.kbdReq = .idle)

/-! ## Creation and the video cells -/

/-- The machine with the empty image (R35, R213): all memory and every register 0, Running, both agents Idle; its first step is the fault
of an unrecognized opcode with no memory change. -/
def Obligations.ResetIsAllZero : Prop :=
  (∀ a, State.reset.byte a = 0) ∧ (∀ r, State.reset.reg r = 0) ∧ State.reset.status = .running ∧
  State.reset.timerReq = .idle ∧ State.reset.kbdReq = .idle ∧
  step State.reset = .next (State.reset.takeFault .unrecognizedOpcode) ∧ State.boot [] [] = .next State.reset

/-- R35: after creation byte `a` of memory is byte `a` of the image, or 0 past its end, so every register is what the image holds; the
last byte is always 0; the status is Running and both agents are Idle. A longer image is refused (R211, D19). -/
def Obligations.BootCopiesTheImage : Prop :=
  ∀ (img : List Byte) (turns : List Turn),
    (img.length ≤ 65535 → ∃ s, State.boot img turns = .next s ∧ (∀ a : Word, s.byte a = img.getD a.toNat 0) ∧
      s.byte 0xFFFF = 0 ∧ s.status = .running ∧ s.timerReq = .idle ∧ s.kbdReq = .idle ∧ s.schedule = turns ∧
      ∀ r, (s.reg r).toNat = (img.getD (regAddr r).toNat 0).toNat + 256 * (img.getD ((regAddr r).toNat + 1) 0).toNat) ∧
    (65535 < img.length → State.boot img turns = .refused .imageTooLong)

/-- The video cells are row-major bytes of memory, and a store writes two adjacent ones (spec/10_state.md section 7, R29). -/
def Obligations.StoreWritesTwoVideoCells : Prop :=
  (∀ (r : Fin 25) (c : Fin 80), (videoAddr r c).toNat = 0x0820 + 80 * r.val + c.val ∧ (videoAddr r c).toNat ≤ 0x0FEF) ∧
  ∀ (s : State) (r : Fin 25) (c c' : Fin 80) (v : Word), s.mem.wf = true → c'.val = c.val + 1 →
    ∃ t, exec (.storeImm (videoAddr r c) v) s = .next t ∧ t.videoCell r c = v.extractLsb' 0 8 ∧
      t.videoCell r c' = v.extractLsb' 8 8 ∧
      ∀ r' c'', (r', c'') ≠ (r, c) → (r', c'') ≠ (r, c') → t.videoCell r' c'' = s.videoCell r' c''
end

