-- ==== Sys2Proof/Laws/Memory.lean ====
section
/-! SUPPORT. The laws of memory as a list of cells in canonical form. -/

namespace Sys2Proof.Machine

theorem Memory.wfFrom_cons {lo k : Nat} {x : Byte} {m : Memory} :
    Memory.wfFrom lo ((k, x) :: m) = true ↔
      lo ≤ k ∧ k < memSize ∧ x ≠ blankByte ∧ Memory.wfFrom (k + 1) m = true := by
  simp [Memory.wfFrom, and_assoc]

theorem Memory.wfFrom_mono {lo lo' : Nat} (h : lo' ≤ lo) {m : Memory} (hm : Memory.wfFrom lo m = true) :
    Memory.wfFrom lo' m = true := by
  cases m with
  | nil => rfl
  | cons c m =>
    obtain ⟨k, x⟩ := c
    rw [Memory.wfFrom_cons] at hm ⊢
    exact ⟨h.trans hm.1, hm.2⟩

/-- Below its first address a canonical memory reads as blank. -/
theorem Memory.read_of_lt {m : Memory} : ∀ {lo a : Nat}, Memory.wfFrom lo m = true → a < lo → m.read a = blankByte := by
  induction m with
  | nil => intros; rfl
  | cons c m ih =>
    intro lo a hm ha
    obtain ⟨k, x⟩ := c
    rw [Memory.wfFrom_cons] at hm
    have hk : a ≠ k := by omega
    simp only [Memory.read, hk, if_false]
    exact ih hm.2.2.2 (by omega)

/-- A write leaves every other address alone; no premise on the memory. -/
theorem Memory.read_write_other {m : Memory} {a b : Nat} {v : Byte} (h : b ≠ a) : (m.write a v).read b = m.read b := by
  induction m with
  | nil => by_cases hv : v = blankByte <;> simp [Memory.write, Memory.read, hv, h]
  | cons c m ih =>
    obtain ⟨k, x⟩ := c
    by_cases h1 : a < k
    · by_cases hv : v = blankByte <;> simp [Memory.write, Memory.read, h1, hv, h]
    · by_cases h2 : a = k
      · subst h2
        by_cases hv : v = blankByte <;> simp [Memory.write, Memory.read, hv, h]
      · simp [Memory.write, Memory.read, h1, h2, ih]

/-- Reading back what was written. -/
theorem Memory.read_write_same {m : Memory} : ∀ {lo a : Nat} {v : Byte}, Memory.wfFrom lo m = true →
    (m.write a v).read a = v := by
  induction m with
  | nil => intro lo a v _; by_cases hv : v = blankByte <;> simp [Memory.write, Memory.read, hv]
  | cons c m ih =>
    intro lo a v hm
    obtain ⟨k, x⟩ := c
    rw [Memory.wfFrom_cons] at hm
    have hm' := hm.2.2.2
    by_cases h1 : a < k
    · have h2 : a ≠ k := by omega
      by_cases hv : v = blankByte
      · simp [Memory.write, Memory.read, hv, h1, h2, Memory.read_of_lt hm' (Nat.lt_succ_of_lt h1)]
      · simp [Memory.write, Memory.read, hv, h1]
    · by_cases h2 : a = k
      · subst h2
        by_cases hv : v = blankByte
        · simp [Memory.write, hv, Memory.read_of_lt hm' (Nat.lt_succ_self a)]
        · simp [Memory.write, Memory.read, hv]
      · simp [Memory.write, Memory.read, h1, h2, ih hm']

/-- A write inside the address space keeps the canonical form. -/
theorem Memory.wfFrom_write {m : Memory} : ∀ {lo a : Nat} {v : Byte}, Memory.wfFrom lo m = true → lo ≤ a → a < memSize →
    Memory.wfFrom lo (m.write a v) = true := by
  induction m with
  | nil =>
    intro lo a v _ hlo ha
    by_cases hv : v = blankByte
    · simp [Memory.write, hv, Memory.wfFrom]
    · simp [Memory.write, hv, Memory.wfFrom, hlo, ha]
  | cons c m ih =>
    intro lo a v hm hlo ha
    obtain ⟨k, x⟩ := c
    have hm0 := hm
    rw [Memory.wfFrom_cons] at hm
    obtain ⟨h1, h2, h3, h4⟩ := hm
    by_cases hak : a < k
    · by_cases hv : v = blankByte
      · simpa [Memory.write, hak, hv] using hm0
      · simp only [Memory.write, hak, hv, if_true, if_false]
        rw [Memory.wfFrom_cons, Memory.wfFrom_cons]
        exact ⟨hlo, ha, hv, hak, h2, h3, h4⟩
    · by_cases hk : a = k
      · subst hk
        by_cases hv : v = blankByte
        · simpa [Memory.write, hv] using Memory.wfFrom_mono (by omega) h4
        · simp only [Memory.write, lt_irrefl, hv, if_true, if_false]
          rw [Memory.wfFrom_cons]
          exact ⟨hlo, ha, hv, h4⟩
      · simp only [Memory.write, hak, hk, if_false]
        rw [Memory.wfFrom_cons]
        exact ⟨h1, h2, h3, ih h4 (by omega) ha⟩

theorem Memory.wf_write {m : Memory} {a : Nat} {v : Byte} (hm : m.wf = true) (ha : a < memSize) :
    (m.write a v).wf = true :=
  Memory.wfFrom_write hm (Nat.zero_le a) ha

/-- Equal contents are equal data: the canonical form is unique. -/
theorem Memory.ext_of_wfFrom {m : Memory} : ∀ {m' : Memory} {lo : Nat}, Memory.wfFrom lo m = true →
    Memory.wfFrom lo m' = true → (∀ a, a < memSize → m.read a = m'.read a) → m = m' := by
  induction m with
  | nil =>
    intro m' lo _ hm' h
    cases m' with
    | nil => rfl
    | cons c m' =>
      obtain ⟨k, x⟩ := c
      rw [Memory.wfFrom_cons] at hm'
      have := h k hm'.2.1
      simp only [Memory.read, if_true] at this
      exact absurd this.symm hm'.2.2.1
  | cons c m ih =>
    intro m' lo hm hm' h
    obtain ⟨k, x⟩ := c
    rw [Memory.wfFrom_cons] at hm
    obtain ⟨h1, h2, h3, h4⟩ := hm
    cases m' with
    | nil =>
      have := h k h2
      simp only [Memory.read, if_true] at this
      exact absurd this h3
    | cons c' m' =>
      obtain ⟨k', x'⟩ := c'
      rw [Memory.wfFrom_cons] at hm'
      obtain ⟨h1', h2', h3', h4'⟩ := hm'
      have hkk : k = k' := by
        rcases Nat.lt_trichotomy k k' with hlt | heq | hgt
        · have := h k h2
          simp only [Memory.read, if_true, hlt.ne, if_false] at this
          exact absurd (this.trans (Memory.read_of_lt h4' (by omega))) h3
        · exact heq
        · have := h k' h2'
          simp only [Memory.read, if_true, hgt.ne, if_false] at this
          exact absurd (this.symm.trans (Memory.read_of_lt h4 (by omega))) h3'
      subst hkk
      have hx : x = x' := by simpa [Memory.read] using h k h2
      subst hx
      have : m = m' := ih h4 h4' fun a ha => by
        by_cases hak : a = k
        · subst hak
          rw [Memory.read_of_lt h4 (Nat.lt_succ_self a), Memory.read_of_lt h4' (Nat.lt_succ_self a)]
        · simpa [Memory.read, hak] using h a ha
      rw [this]

theorem Memory.ext_of_wf {m m' : Memory} (hm : m.wf = true) (hm' : m'.wf = true)
    (h : ∀ a, a < memSize → m.read a = m'.read a) : m = m' :=
  Memory.ext_of_wfFrom hm hm' h

/-- An image inside the address space is laid out in canonical form. -/
theorem wfFrom_imageCells {img : List Byte} : ∀ {a : Nat}, a + img.length ≤ memSize →
    Memory.wfFrom a (imageCells a img) = true := by
  induction img with
  | nil => intros; rfl
  | cons v img ih =>
    intro a h
    simp only [List.length_cons] at h
    have hrec : Memory.wfFrom (a + 1) (imageCells (a + 1) img) = true := ih (by omega)
    by_cases hv : v = blankByte
    · simpa [imageCells, hv] using Memory.wfFrom_mono (Nat.le_succ a) hrec
    · simp only [imageCells, hv, if_false]
      rw [Memory.wfFrom_cons]
      exact ⟨le_refl a, by omega, hv, hrec⟩

/-- Byte `k` of an image laid out from `a` on stands at `a + k`; the bytes after it are blank. -/
theorem read_imageCells {img : List Byte} : ∀ {a k : Nat}, a + img.length ≤ memSize →
    (imageCells a img).read (a + k) = img.getD k blankByte := by
  induction img with
  | nil => intros; rfl
  | cons v img ih =>
    intro a k h
    simp only [List.length_cons] at h
    have hwf : Memory.wfFrom (a + 1) (imageCells (a + 1) img) = true := wfFrom_imageCells (by omega)
    cases k with
    | zero =>
      by_cases hv : v = blankByte
      · simp [imageCells, hv, Memory.read_of_lt hwf (Nat.lt_succ_self a)]
      · simp [imageCells, hv, Memory.read]
    | succ k =>
      have := ih (a := a + 1) (k := k) (by omega)
      rw [show a + 1 + k = a + (k + 1) by omega] at this
      by_cases hv : v = blankByte
      · simpa [imageCells, hv] using this
      · simpa [imageCells, hv, Memory.read] using this

end Sys2Proof.Machine
end

