-- ==== Sys2Proof/Laws/State.lean ====
section
/-! SUPPORT. One lemma per field per update of State, so that no later proof unfolds a record update. -/

namespace Sys2Proof.Machine

variable (s : State) (a v : Word) (b : Byte) (r : Reg) (len : Nat) (e : FaultReason)

@[simp] theorem State.setByte_mem : (s.setByte a b).mem = s.mem.write a.toNat b := rfl
@[simp] theorem State.setByte_status : (s.setByte a b).status = s.status := rfl
@[simp] theorem State.setByte_timerReq : (s.setByte a b).timerReq = s.timerReq := rfl
@[simp] theorem State.setByte_kbdReq : (s.setByte a b).kbdReq = s.kbdReq := rfl
@[simp] theorem State.setByte_schedule : (s.setByte a b).schedule = s.schedule := rfl
@[simp] theorem State.setByte_overlapKey : (s.setByte a b).overlapKey = s.overlapKey := rfl

@[simp] theorem State.setWord_status : (s.setWord a v).status = s.status := rfl
@[simp] theorem State.setWord_timerReq : (s.setWord a v).timerReq = s.timerReq := rfl
@[simp] theorem State.setWord_kbdReq : (s.setWord a v).kbdReq = s.kbdReq := rfl
@[simp] theorem State.setWord_schedule : (s.setWord a v).schedule = s.schedule := rfl
@[simp] theorem State.setWord_overlapKey : (s.setWord a v).overlapKey = s.overlapKey := rfl

@[simp] theorem State.setReg_status : (s.setReg r v).status = s.status := rfl
@[simp] theorem State.setReg_timerReq : (s.setReg r v).timerReq = s.timerReq := rfl
@[simp] theorem State.setReg_kbdReq : (s.setReg r v).kbdReq = s.kbdReq := rfl
@[simp] theorem State.setReg_schedule : (s.setReg r v).schedule = s.schedule := rfl
@[simp] theorem State.setReg_overlapKey : (s.setReg r v).overlapKey = s.overlapKey := rfl

@[simp] theorem State.advance_status : (s.advance len).status = s.status := rfl
@[simp] theorem State.advance_timerReq : (s.advance len).timerReq = s.timerReq := rfl
@[simp] theorem State.advance_kbdReq : (s.advance len).kbdReq = s.kbdReq := rfl
@[simp] theorem State.advance_schedule : (s.advance len).schedule = s.schedule := rfl
@[simp] theorem State.advance_overlapKey : (s.advance len).overlapKey = s.overlapKey := rfl

@[simp] theorem State.takeFault_mem : (s.takeFault e).mem = s.mem := rfl
@[simp] theorem State.takeFault_status : (s.takeFault e).status = .faulted e := rfl
@[simp] theorem State.takeFault_timerReq : (s.takeFault e).timerReq = s.timerReq := rfl
@[simp] theorem State.takeFault_kbdReq : (s.takeFault e).kbdReq = s.kbdReq := rfl
@[simp] theorem State.takeFault_schedule : (s.takeFault e).schedule = s.schedule := rfl
@[simp] theorem State.takeFault_overlapKey : (s.takeFault e).overlapKey = s.overlapKey := rfl

@[simp] theorem State.storeKey_mem : (s.storeKey b).mem = s.mem.write 0x18 b := rfl
@[simp] theorem State.storeKey_status : (s.storeKey b).status = s.status := rfl
@[simp] theorem State.storeKey_timerReq : (s.storeKey b).timerReq = s.timerReq := rfl
@[simp] theorem State.storeKey_kbdReq : (s.storeKey b).kbdReq = .latched := rfl
@[simp] theorem State.storeKey_schedule : (s.storeKey b).schedule = s.schedule := rfl
@[simp] theorem State.storeKey_overlapKey : (s.storeKey b).overlapKey = s.overlapKey := rfl

/-- With no overlapping key nothing lands. -/
theorem State.landKey_of_none {s : State} {p : KeyPoint} (h : s.overlapKey = none) : s.landKey p = s := by
  unfold State.landKey; rw [h]

/-- While the Keyboard polls, the key lands at its point. -/
theorem State.landKey_of_some {s : State} {p : KeyPoint} {key : Byte} (h : s.overlapKey = some (p, key))
    (hk : s.kbdReq = .enabled) : s.landKey p = { s.storeKey key with overlapKey := none } := by
  unfold State.landKey State.landPending; rw [h]; simp only [if_true, hk]

/-- A key does not land at another point. -/
theorem State.landKey_of_ne {s : State} {p q : KeyPoint} {key : Byte} (h : s.overlapKey = some (q, key)) (hq : q ≠ p) :
    s.landKey p = s := by
  unfold State.landKey; rw [h]; exact if_neg hq

/-- What landing the pending key can do: nothing, or the store of the key. -/
theorem State.landPending_cases (s : State) :
    s.landPending = s ∨ ∃ p key, s.overlapKey = some (p, key) ∧ s.kbdReq = .enabled ∧
      s.landPending = { s.storeKey key with overlapKey := none } := by
  unfold State.landPending
  split
  · exact .inr ⟨_, _, by assumption, by assumption, rfl⟩
  · exact .inl rfl

/-- What passing a point can do: nothing, or the store of the key. -/
theorem State.landKey_cases (p : KeyPoint) (s : State) :
    s.landKey p = s ∨ ∃ key, s.overlapKey = some (p, key) ∧ s.kbdReq = .enabled ∧
      s.landKey p = { s.storeKey key with overlapKey := none } := by
  rcases h : s.overlapKey with _ | ⟨q, key⟩
  · exact .inl (State.landKey_of_none h)
  · by_cases hq : q = p
    · subst hq
      by_cases hk : s.kbdReq = .enabled
      · exact .inr ⟨key, rfl, hk, State.landKey_of_some h hk⟩
      · refine .inl ?_
        rcases s.landPending_cases with h' | ⟨_, _, _, h', _⟩
        · unfold State.landKey; rw [h]; simp only [if_true, h']
        · exact absurd h' hk
    · exact .inl (State.landKey_of_ne h hq)

@[simp] theorem State.landKey_status (p : KeyPoint) : (s.landKey p).status = s.status := by
  rcases s.landKey_cases p with h | ⟨_, _, _, h⟩ <;> rw [h]; rfl

@[simp] theorem State.landKey_timerReq (p : KeyPoint) : (s.landKey p).timerReq = s.timerReq := by
  rcases s.landKey_cases p with h | ⟨_, _, _, h⟩ <;> rw [h]; rfl

@[simp] theorem State.landKey_schedule (p : KeyPoint) : (s.landKey p).schedule = s.schedule := by
  rcases s.landKey_cases p with h | ⟨_, _, _, h⟩ <;> rw [h]; rfl

@[simp] theorem State.landPending_status : s.landPending.status = s.status := by
  rcases s.landPending_cases with h | ⟨_, _, _, _, h⟩ <;> rw [h]; rfl

@[simp] theorem State.landPending_timerReq : s.landPending.timerReq = s.timerReq := by
  rcases s.landPending_cases with h | ⟨_, _, _, _, h⟩ <;> rw [h]; rfl

@[simp] theorem State.landPending_schedule : s.landPending.schedule = s.schedule := by
  rcases s.landPending_cases with h | ⟨_, _, _, _, h⟩ <;> rw [h]; rfl

@[simp] theorem takeTurn_mem : (takeTurn s).2.mem = s.mem := by unfold takeTurn; split <;> rfl
@[simp] theorem takeTurn_status : (takeTurn s).2.status = s.status := by unfold takeTurn; split <;> rfl
@[simp] theorem takeTurn_timerReq : (takeTurn s).2.timerReq = s.timerReq := by unfold takeTurn; split <;> rfl
@[simp] theorem takeTurn_kbdReq : (takeTurn s).2.kbdReq = s.kbdReq := by unfold takeTurn; split <;> rfl
@[simp] theorem takeTurn_overlapKey : (takeTurn s).2.overlapKey = s.overlapKey := by unfold takeTurn; split <;> rfl

end Sys2Proof.Machine
end

