-- ==== Sys2Proof/Laws/Ops.lean ====
section
/-! SUPPORT. What the shared operations do, one lemma each: bytes and words, the register map, push, pop, raise, the operand
shapes and landing a key. -/

namespace Sys2Proof.Machine

/-! ## Words of two bytes -/

theorem joinBytes_eq (x y : Byte) : joinBytes x y = y ++ x := rfl

theorem firstByte_eq (w : Word) : firstByte w = w.extractLsb' 0 8 := rfl

theorem secondByte_eq (w : Word) : secondByte w = w.extractLsb' 8 8 := rfl

@[simp] theorem joinBytes_firstByte_secondByte (w : Word) : joinBytes (firstByte w) (secondByte w) = w := by
  rw [joinBytes_eq, firstByte_eq, secondByte_eq]
  ext i hi
  simp only [BitVec.getElem_append, BitVec.getElem_extractLsb']
  split
  · simp [← BitVec.getLsbD_eq_getElem]
  · rw [← BitVec.getLsbD_eq_getElem]; congr 1; omega

@[simp] theorem firstByte_joinBytes (x y : Byte) : firstByte (joinBytes x y) = x := by
  rw [joinBytes_eq, firstByte_eq]
  ext i hi
  rw [BitVec.getElem_extractLsb', BitVec.getLsbD_append, if_pos (by omega), Nat.zero_add, BitVec.getLsbD_eq_getElem]

@[simp] theorem secondByte_joinBytes (x y : Byte) : secondByte (joinBytes x y) = y := by
  rw [joinBytes_eq, secondByte_eq]
  ext i hi
  rw [BitVec.getElem_extractLsb', BitVec.getLsbD_append, if_neg (by omega), Nat.add_sub_cancel_left,
    BitVec.getLsbD_eq_getElem]

/-- A word as a number: the low byte, and 256 times the high one (R8). -/
theorem toNat_joinBytes (x y : Byte) : (joinBytes x y).toNat = x.toNat + 256 * y.toNat := by
  rw [joinBytes_eq, BitVec.toNat_append, ← Nat.shiftLeft_add_eq_or_of_lt x.isLt, Nat.shiftLeft_eq]
  omega

@[simp] theorem wordInRange_iff (a : Word) : wordInRange a = true ↔ a ≠ 0xFFFF := by
  simp [wordInRange, wordAligned, params]

/-- The engine's sum is the sum modulo 2^16 (D5). -/
@[simp] theorem cellAdd_eq (a b : Word) : cellAdd a b = a + b := rfl

/-- The engine's difference is the difference modulo 2^16 (D5). -/
@[simp] theorem cellSub_eq (a b : Word) : cellSub a b = a - b := rfl

theorem succ_ne (a : Word) : a + 1 ≠ a := by
  intro h
  have h1 : (a.toNat + 1) % 65536 = a.toNat := by simpa using congrArg BitVec.toNat h
  have := a.isLt
  omega

@[simp] theorem mem_cells {a b : Word} : b ∈ cells a ↔ b = a ∨ b = a + 1 := by simp [cells]

theorem apart_comm {a b : Word} : apart a b ↔ apart b a :=
  ⟨fun h x hx hx' => h x hx' hx, fun h x hx hx' => h x hx' hx⟩

/-- Two words share no byte exactly when they are more than one address apart. -/
theorem apart_iff {a b : Word} : apart a b ↔ a ≠ b ∧ a ≠ b + 1 ∧ a + 1 ≠ b := by
  constructor
  · intro h
    exact ⟨fun e => h a (by simp) (mem_cells.mpr (.inl e)), fun e => h a (by simp) (mem_cells.mpr (.inr e)),
      fun e => h (a + 1) (by simp) (mem_cells.mpr (.inl e))⟩
  · rintro ⟨h0, h1, h2⟩ x hx hx'
    rw [mem_cells] at hx hx'
    rcases hx with rfl | rfl <;> rcases hx' with h | h
    · exact h0 h
    · exact h1 h
    · exact h2 h
    · exact h0 (by simpa using h)

/-! ## Bytes and words of the state -/

theorem byte_setByte_same {s : State} (h : s.mem.wf = true) (a : Word) (b : Byte) : (s.setByte a b).byte a = b :=
  Memory.read_write_same h

theorem byte_setByte_other {s : State} {a c : Word} {b : Byte} (h : c ≠ a) : (s.setByte a b).byte c = s.byte c :=
  Memory.read_write_other fun heq => h (BitVec.eq_of_toNat_eq heq)

theorem wf_setByte {s : State} (h : s.mem.wf = true) (a : Word) (b : Byte) : (s.setByte a b).mem.wf = true :=
  Memory.wf_write h a.isLt

theorem wf_setWord {s : State} (h : s.mem.wf = true) (a v : Word) : (s.setWord a v).mem.wf = true :=
  wf_setByte (wf_setByte h _ _) _ _

theorem wf_setReg {s : State} (h : s.mem.wf = true) (r : Reg) (v : Word) : (s.setReg r v).mem.wf = true :=
  wf_setWord h _ _

theorem wf_advance {s : State} (h : s.mem.wf = true) (len : Nat) : (s.advance len).mem.wf = true := wf_setReg h _ _

theorem wf_storeKey {s : State} (h : s.mem.wf = true) (key : Byte) : (s.storeKey key).mem.wf = true :=
  wf_setByte h kbAddr key

theorem wf_landKey {s : State} (h : s.mem.wf = true) (p : KeyPoint) : (s.landKey p).mem.wf = true := by
  rcases s.landKey_cases p with h' | ⟨key, _, _, h'⟩ <;> rw [h']
  · exact h
  · exact wf_storeKey h key

theorem wf_landPending {s : State} (h : s.mem.wf = true) : s.landPending.mem.wf = true := by
  rcases s.landPending_cases with h' | ⟨_, key, _, _, h'⟩ <;> rw [h']
  · exact h
  · exact wf_storeKey h key

/-- A word store leaves every byte outside its two alone; no premise on the memory. -/
theorem byte_setWord_other {s : State} {a v c : Word} (h : c ∉ cells a) : (s.setWord a v).byte c = s.byte c := by
  simp only [mem_cells, not_or] at h
  rw [State.setWord, byte_setByte_other h.2, byte_setByte_other h.1]

theorem byte_setWord_low {s : State} (h : s.mem.wf = true) (a v : Word) : (s.setWord a v).byte a = firstByte v := by
  rw [State.setWord, byte_setByte_other (succ_ne a).symm, byte_setByte_same h]

theorem byte_setWord_high {s : State} (h : s.mem.wf = true) (a v : Word) :
    (s.setWord a v).byte (a + 1) = secondByte v :=
  byte_setByte_same (wf_setByte h _ _) _ _

@[simp] theorem word_setWord_same {s : State} (h : s.mem.wf = true) (a v : Word) : (s.setWord a v).word a = v := by
  rw [State.word, byte_setWord_low h, byte_setWord_high h, joinBytes_firstByte_secondByte]

/-- Words that share no byte with the stored one keep their value. -/
theorem word_setWord_apart {s : State} {a v c : Word} (h : apart c a) : (s.setWord a v).word c = s.word c := by
  rw [State.word, State.word, byte_setWord_other (h c (by simp)), byte_setWord_other (h (c + 1) (by simp))]

/-- A word read depends on its two bytes alone. -/
theorem word_congr {s t : State} {a : Word} (h : ∀ x ∈ cells a, t.byte x = s.byte x) : t.word a = s.word a := by
  rw [State.word, State.word, h a (by simp), h (a + 1) (by simp)]

/-! ## The register map -/

/-- The address of a 16-bit register as a number (R21). -/
theorem regAddr_toNat : ∀ r : Reg, (regAddr r).toNat =
    match r with
    | .r0 => 0 | .r1 => 2 | .r2 => 4 | .r4 => 6 | .sp => 8 | .sb => 10 | .fl => 12 | .ip => 14
    | .int v => 16 + 2 * v.val
  | .r0 | .r1 | .r2 | .r4 | .sp | .sb | .fl | .ip => rfl
  | .int v => by revert v; decide

/-- Every register cell has an even address inside `0x0000..0x0016` (R21). -/
theorem regAddr_even (r : Reg) : (regAddr r).toNat % 2 = 0 ∧ (regAddr r).toNat ≤ 22 := by
  rw [regAddr_toNat]
  cases r <;> (simp; try omega)

theorem regAddr_injective {r r' : Reg} (h : (regAddr r).toNat = (regAddr r').toNat) : r = r' := by
  rw [regAddr_toNat, regAddr_toNat] at h
  cases r <;> cases r' <;> first
    | rfl
    | (simp at h; done)
    | (simp only at h; omega)
    | (congr 1; apply Fin.ext; simp only at h; omega)

/-- No two 16-bit registers share a byte (R21). -/
theorem regAddr_apart {r r' : Reg} (h : r ≠ r') : apart (regAddr r) (regAddr r') := by
  have hne : (regAddr r).toNat ≠ (regAddr r').toNat := fun e => h (regAddr_injective e)
  have h1 := regAddr_even r
  have h2 := regAddr_even r'
  intro x hx hx'
  rw [mem_cells] at hx hx'
  have e1 : (regAddr r + 1).toNat = (regAddr r).toNat + 1 := by
    rw [BitVec.toNat_add]; simp; omega
  have e2 : (regAddr r' + 1).toNat = (regAddr r').toNat + 1 := by
    rw [BitVec.toNat_add]; simp; omega
  rcases hx with rfl | rfl <;> rcases hx' with hx' | hx' <;> have := congrArg BitVec.toNat hx' <;> omega

@[simp] theorem reg_setReg_same {s : State} (h : s.mem.wf = true) (r : Reg) (v : Word) : (s.setReg r v).reg r = v :=
  word_setWord_same h _ _

theorem reg_setReg_other {s : State} {r r' : Reg} {v : Word} (h : r' ≠ r) : (s.setReg r v).reg r' = s.reg r' :=
  word_setWord_apart (regAddr_apart h)

theorem reg_setWord_apart {s : State} {r : Reg} {a v : Word} (h : apartReg a r) : (s.setWord a v).reg r = s.reg r :=
  word_setWord_apart (apart_comm.mp h)

theorem word_setReg_apart {s : State} {r : Reg} {a v : Word} (h : apartReg a r) : (s.setReg r v).word a = s.word a :=
  word_setWord_apart h

theorem State.nextIp_eq (s : State) (len : Nat) : s.nextIp len = s.reg .ip + BitVec.ofNat 16 len := rfl

theorem reg_advance_ip {s : State} (h : s.mem.wf = true) (len : Nat) : (s.advance len).reg .ip = s.nextIp len :=
  reg_setReg_same h _ _

theorem reg_advance_other {s : State} {r : Reg} (h : r ≠ .ip) (len : Nat) : (s.advance len).reg r = s.reg r :=
  reg_setReg_other h

theorem word_advance_apart {s : State} {a : Word} (h : apartReg a .ip) (len : Nat) : (s.advance len).word a = s.word a :=
  word_setReg_apart h

/-- What a source word reads after IP <- next, wherever it stands (R68). -/
theorem word_advance {s : State} (h : s.mem.wf = true) (len : Nat) (a : Word) :
    (s.advance len).word a = s.sourceWord len a := by
  unfold State.sourceWord
  split
  · subst a; exact reg_advance_ip h len
  · split
    · subst a
      rw [State.word, joinBytes_eq, show (0x000D : Word) + 1 = regAddr .ip from rfl, State.advance, State.setReg,
        byte_setWord_low h, byte_setWord_other (by decide), firstByte_eq]
    · split
      · subst a
        rw [State.word, joinBytes_eq, show (0x000F : Word) = regAddr .ip + 1 from rfl, State.advance, State.setReg,
          byte_setWord_high h, byte_setWord_other (by decide), secondByte_eq]
        rfl
      · rename_i h0 h1 h2
        refine word_advance_apart (apart_iff.mpr ⟨h0, h2, fun e => h1 ?_⟩) len
        rw [show (0x000D : Word) = a + 1 - 1 by rw [e]; rfl]; simp

theorem pushAddr_advance (s : State) (len : Nat) : (s.advance len).pushAddr = s.pushAddr := by
  rw [State.pushAddr, State.pushAddr, reg_advance_other (by decide), reg_advance_other (by decide)]

theorem popAddr_advance (s : State) (len : Nat) : (s.advance len).popAddr = s.popAddr := by
  rw [State.popAddr, State.popAddr, reg_advance_other (by decide), reg_advance_other (by decide)]

/-! ## Which bytes changed -/

theorem SameBytesExcept.refl (w : List Word) (s : State) : SameBytesExcept w s s := fun _ _ => rfl

theorem SameBytesExcept.trans {w : List Word} {s t u : State} (h : SameBytesExcept w s t) (h' : SameBytesExcept w t u) :
    SameBytesExcept w s u := fun a ha => (h' a ha).trans (h a ha)

theorem SameBytesExcept.mono {w w' : List Word} {s t : State} (h : SameBytesExcept w s t) (hw : ∀ a ∈ w, a ∈ w') :
    SameBytesExcept w' s t := fun a ha => h a fun ha' => ha (hw a ha')

theorem sameBytes_setWord (s : State) (a v : Word) : SameBytesExcept (cells a) s (s.setWord a v) :=
  fun _ h => byte_setWord_other h

theorem sameBytes_setReg (s : State) (r : Reg) (v : Word) : SameBytesExcept (regCells r) s (s.setReg r v) :=
  sameBytes_setWord s _ v

theorem sameBytes_advance (s : State) (len : Nat) : SameBytesExcept (regCells .ip) s (s.advance len) :=
  sameBytes_setReg s _ _

theorem sameBytes_storeKey (s : State) (key : Byte) : SameBytesExcept [kbAddr] s (s.storeKey key) := by
  intro a h
  exact byte_setByte_other (by simpa using h)

theorem SameControl.refl (s : State) : SameControl s s := ⟨rfl, rfl, rfl, rfl, rfl⟩

theorem SameControl.trans {s t u : State} (h : SameControl s t) (h' : SameControl t u) : SameControl s u :=
  ⟨h'.1.trans h.1, h'.2.1.trans h.2.1, h'.2.2.1.trans h.2.2.1, h'.2.2.2.1.trans h.2.2.2.1,
    h'.2.2.2.2.trans h.2.2.2.2⟩

theorem sameControl_setWord (s : State) (a v : Word) : SameControl s (s.setWord a v) := SameControl.refl s

theorem sameControl_setReg (s : State) (r : Reg) (v : Word) : SameControl s (s.setReg r v) := SameControl.refl s

theorem sameControl_advance (s : State) (len : Nat) : SameControl s (s.advance len) := SameControl.refl s

/-! ## The shared operations -/

/-- Reading a word: the word, or the fault at the top of memory. -/
theorem readWord_eq (s : State) (a : Word) :
    readWord s a = if a = 0xFFFF then .error .addressOutOfRange else .ok (s.word a) := by
  unfold readWord
  by_cases h : a = 0xFFFF
  · subst h; rfl
  · rw [if_pos ((wordInRange_iff a).mpr h), if_neg h]

/-- Writing a word: the store, or the fault at the top of memory. -/
theorem writeWord_eq (s : State) (a v : Word) :
    writeWord s a v = if a = 0xFFFF then .error .addressOutOfRange else .ok (s.setWord a v) := by
  unfold writeWord
  by_cases h : a = 0xFFFF
  · subst h; rfl
  · rw [if_pos ((wordInRange_iff a).mpr h), if_neg h]

/-- Everything `push` can do (R140). -/
theorem push_eq (s : State) (v : Word) :
    push s v = if s.pushAddr = 0xFFFF then .error .addressOutOfRange
      else .ok ((s.setReg .sp (s.reg .sp + 2)).setWord s.pushAddr v) := by
  unfold push
  simp only [writeWord_eq, cellAdd_eq, cellSub_eq, reg_setReg_other (show Reg.sb ≠ Reg.sp by decide)]
  rfl

/-- Everything `raise` can do (R142). -/
theorem raise_eq (s : State) (v : Fin 4) :
    raise s v = if s.pushAddr = 0xFFFF then .error .addressOutOfRange
      else .ok (((s.setReg .sp (s.reg .sp + 2)).setWord s.pushAddr (s.reg .ip)).setReg .ip (s.reg (.int v))) := by
  unfold raise
  rw [push_eq]
  by_cases h : s.pushAddr = 0xFFFF
  · rw [if_pos h, if_pos h]
  · rw [if_neg h, if_neg h]

/-- Everything `pop` can do (R141). -/
theorem pop_eq (s : State) :
    pop s = if s.popAddr = 0xFFFF then .error .addressOutOfRange
      else .ok (s.word s.popAddr, s.setReg .sp (s.reg .sp - 2)) := by
  unfold pop
  simp only [params, readWord_eq, cellSub_eq]
  by_cases h : s.popAddr = 0xFFFF
  · rw [if_pos h, State.popAddr] at *
    rw [if_pos h]
  · rw [if_neg h, State.popAddr] at *
    rw [if_neg h]

/-- Everything the two-operand shape can do (R111, R129). -/
theorem unaryShape_eq (len : Nat) (f : Word → Word) (d src : Word) (s : State) :
    unaryShape len f d src s = .next (if src = 0xFFFF ∨ d = 0xFFFF then s.takeFault .addressOutOfRange
      else ((s.advance len).landKey .beforeResult).setWord d (f ((s.advance len).word src))) := by
  simp only [unaryShape, readWord_eq, writeWord_eq]
  by_cases h1 : src = 0xFFFF
  · rw [if_pos h1, if_pos (Or.inl h1)]; rfl
  · rw [if_neg h1]
    by_cases h2 : d = 0xFFFF
    · rw [if_pos (Or.inr h2)]; simp only; rw [if_pos h2]; rfl
    · rw [if_neg (not_or.mpr ⟨h1, h2⟩)]; simp only; rw [if_neg h2]; rfl

/-- Everything the three-address shape can do (R120 law 7). -/
theorem ternaryShape_eq (f : Word → Word → Except FaultReason Word) (d s1 s2 : Word) (s : State) :
    ternaryShape f d s1 s2 s =
      if d = 0xFFFF ∨ s1 = 0xFFFF ∨ s2 = 0xFFFF then .next (s.takeFault .addressOutOfRange)
      else match f ((s.advance 7).word s1) (((s.advance 7).landKey .betweenSources).word s2) with
        | .ok r => .next ((((s.advance 7).landKey .betweenSources).landKey .beforeResult).setWord d r)
        | .error e => .next ((s.landKey .betweenSources).takeFault e) := by
  unfold ternaryShape
  by_cases h : d = 0xFFFF ∨ s1 = 0xFFFF ∨ s2 = 0xFFFF
  · have : ¬((wordInRange d && wordInRange s1 && wordInRange s2) = true) := by
      simp only [Bool.and_eq_true, wordInRange_iff]; tauto
    rw [if_neg this, if_pos h]
  · have : (wordInRange d && wordInRange s1 && wordInRange s2) = true := by
      simp only [Bool.and_eq_true, wordInRange_iff]; tauto
    rw [if_pos this, if_neg h] <;> rfl

/-! ## The operators -/

theorem addOp_eq (a b : Word) : addOp a b = a + b := by
  apply BitVec.eq_of_toNat_eq; simp [addOp]

theorem subOp_eq (a b : Word) : subOp a b = a - b := by
  apply BitVec.eq_of_toInt_eq
  rw [subOp, BitVec.toInt_sub, BitVec.toInt_ofInt, BitVec.toInt_eq_toNat_bmod, BitVec.toInt_eq_toNat_bmod]
  simp

theorem mulOp_eq (a b : Word) : mulOp a b = a * b := by
  apply BitVec.eq_of_toNat_eq; simp [mulOp]

theorem divOp_eq (a b : Word) : divOp a b = if b = 0 then .error .arithmeticFault else .ok (a / b) := by
  unfold divOp
  by_cases h : b = 0
  · rw [if_pos h, if_pos h]; rfl
  · rw [if_neg h, if_neg h]
    simp only [params, Bool.false_eq_true, if_false]
    congr 1
    apply BitVec.eq_of_toNat_eq
    rw [BitVec.toNat_udiv, BitVec.toNat_ofNat]
    exact Nat.mod_eq_of_lt (lt_of_le_of_lt (Nat.div_le_self _ _) a.isLt)

theorem modOp_eq (a b : Word) : modOp a b = if b = 0 then .error .arithmeticFault else .ok (a % b) := by
  unfold modOp
  by_cases h : b = 0
  · rw [if_pos h, if_pos h]; rfl
  · rw [if_neg h, if_neg h]
    simp only [params, Bool.false_eq_true, if_false]
    congr 1
    apply BitVec.eq_of_toNat_eq
    rw [BitVec.toNat_umod, BitVec.toNat_ofNat, ← Nat.mod_def]
    exact Nat.mod_eq_of_lt (lt_of_le_of_lt (Nat.mod_le _ _) a.isLt)

theorem orOp_eq (a b : Word) : orOp a b = a ||| b := rfl

theorem andOp_eq (a b : Word) : andOp a b = a &&& b := rfl

theorem xorOp_eq (a b : Word) : xorOp a b = a ^^^ b := rfl

theorem notOp_eq (v : Word) : notOp v = if v = 0 then 1 else 0 := by
  by_cases h : v = 0 <;> simp [notOp, truth, params, h]

end Sys2Proof.Machine
end

