-- ==== Sys2Proof/Laws/Decode.lean ====
section
/-! SUPPORT. The opcode table in both directions, and what the fetch reads. -/

namespace Sys2Proof

open Machine

/-- Every opcode's byte names that opcode. -/
@[simp] theorem opcodeOfByte_opcodeByte (o : Opcode) : opcodeOfByte (opcodeByte o) = some o := by
  cases o <;> decide

/-- A byte names an opcode exactly when it is that opcode's byte. -/
theorem opcodeOfByte_eq_some {b : Byte} {o : Opcode} : opcodeOfByte b = some o ↔ b = opcodeByte o := by
  constructor
  · intro h
    have := List.find?_some h
    exact (beq_iff_eq.mp this).symm
  · rintro rfl
    exact opcodeOfByte_opcodeByte o

/-- A byte names no opcode exactly when it is no opcode's byte (R89). -/
theorem opcodeOfByte_eq_none {b : Byte} : opcodeOfByte b = none ↔ ∀ o, b ≠ opcodeByte o := by
  constructor
  · rintro h o rfl
    simp at h
  · intro h
    cases hb : opcodeOfByte b with
    | none => rfl
    | some o => exact absurd (opcodeOfByte_eq_some.mp hb) (h o)

theorem decode_cons {b : Byte} {o : Opcode} (h : opcodeOfByte b = some o) (bs : List Byte) :
    decode (b :: bs) = decodeOperands o bs := by
  simp only [decode, h]

theorem decode_illegal {b : Byte} (h : opcodeOfByte b = none) (bs : List Byte) :
    decode (b :: bs) = .error (.unrecognizedOpcode b) := by
  simp only [decode, h]

/-- The bytes of a word, put together again, are the word. -/
@[simp] theorem wordBytes_eq (w : Word) : wordBytes w = [firstByte w, secondByte w] := rfl

theorem fetchByteExists_iff {ip : Word} {k : Nat} : fetchByteExists ip k = true ↔ ip.toNat + k < 65536 :=
  decide_eq_true_iff (p := ip.toNat + k < memSize)

/-- The first fetched byte is the byte at IP; it always exists. -/
theorem fetchBytes_eq_cons (s : State) : ∃ bs, fetchBytes s = s.byte (s.reg .ip) :: bs := by
  have h : fetchByteExists (s.reg .ip) 0 = true := fetchByteExists_iff.mpr (s.reg .ip).isLt
  refine ⟨(List.filter (fetchByteExists (s.reg .ip)) [1, 2, 3, 4, 5, 6]).map
    fun k => s.byte (s.reg .ip + BitVec.ofNat 16 k), ?_⟩
  unfold fetchBytes
  rw [List.filter_cons_of_pos h, List.map_cons]
  simp

/-- The fetch reads the bytes from IP on that exist, at most seven. -/
theorem fetchBytes_take {s : State} {n : Nat} (hn : n ≤ 7) (h : (s.reg .ip).toNat + n = 65536 ∨
    (n = 7 ∧ (s.reg .ip).toNat + 7 ≤ 65536)) :
    fetchBytes s = (List.range n).map fun k => s.byte (s.reg .ip + BitVec.ofNat 16 k) := by
  unfold fetchBytes
  congr 1
  have hf : ∀ k, fetchByteExists (s.reg .ip) k = decide (k < n) ∨ 7 ≤ k := by
    intro k
    by_cases hk : 7 ≤ k
    · exact .inr hk
    · refine .inl (Bool.eq_iff_iff.mpr ?_)
      rw [fetchByteExists_iff, decide_eq_true_eq]
      omega
  have : List.filter (fetchByteExists (s.reg .ip)) [0, 1, 2, 3, 4, 5, 6] =
      List.filter (fun k => decide (k < n)) [0, 1, 2, 3, 4, 5, 6] := by
    apply List.filter_congr
    intro k hk
    rcases hf k with h' | h'
    · exact h'
    · simp at hk; omega
  rw [this]
  interval_cases n <;> decide

/-- Where the longest instruction fits, the fetch reads the seven bytes from IP on. -/
theorem fetchBytes_of_fits {s : State} (h : (s.reg .ip).toNat ≤ 0xFFF9) :
    fetchBytes s = [0, 1, 2, 3, 4, 5, 6].map fun k => s.byte (s.reg .ip + BitVec.ofNat 16 k) :=
  fetchBytes_take (n := 7) (by omega) (.inr ⟨rfl, by omega⟩)

end Sys2Proof
end

