-- ==== Sys2Proof/Laws/Exec.lean ====
section
/-! SUPPORT. What each instruction's exec is, as one equation over byte and word stores: later proofs cite these and unfold no
meaning. -/

namespace Sys2Proof.Machine

theorem exec_brEq (a b t : Word) (s : State) :
    exec (.brEq a b t) s = .next (s.setReg .ip (if a = b then t else s.nextIp 7)) := rfl

theorem exec_storeImm (d v : Word) (s : State) :
    exec (.storeImm d v) s = .next (if d = 0xFFFF then s.takeFault .addressOutOfRange else (s.advance 5).setWord d v) := by
  show commit s (writeWord (s.advance 5) d v) = _
  rw [writeWord_eq]
  by_cases h : d = 0xFFFF
  · rw [if_pos h, if_pos h]; rfl
  · rw [if_neg h, if_neg h]; rfl

theorem exec_copy (d src : Word) (s : State) :
    exec (.copy d src) s = .next (if src = 0xFFFF ∨ d = 0xFFFF then s.takeFault .addressOutOfRange
      else ((s.advance 5).landKey .beforeResult).setWord d ((s.advance 5).word src)) :=
  unaryShape_eq 5 id d src s

theorem exec_lnot (d src : Word) (s : State) :
    exec (.lnot d src) s = .next (if src = 0xFFFF ∨ d = 0xFFFF then s.takeFault .addressOutOfRange
      else ((s.advance 5).landKey .beforeResult).setWord d (notOp ((s.advance 5).word src))) :=
  unaryShape_eq 5 notOp d src s

/-- The operator of a three-address instruction. -/
def ternaryOp : Instr → Option ((Word → Word → Except FaultReason Word) × Word × Word × Word)
  | .add d s1 s2 => some (total addOp, d, s1, s2)
  | .sub d s1 s2 => some (total subOp, d, s1, s2)
  | .mul d s1 s2 => some (total mulOp, d, s1, s2)
  | .div d s1 s2 => some (divOp, d, s1, s2)
  | .mod d s1 s2 => some (modOp, d, s1, s2)
  | .or d s1 s2 => some (total orOp, d, s1, s2)
  | .and d s1 s2 => some (total andOp, d, s1, s2)
  | .xor d s1 s2 => some (total xorOp, d, s1, s2)
  | .brEq _ _ _ | .storeImm _ _ | .copy _ _ | .lnot _ _ | .int _ | .push _ | .pop _ | .yield | .halt => none

/-- The eight three-address instructions are one shape over their operators (R120 law 7); what the shape can do is `ternaryShape_eq`. -/
theorem exec_ternary {i : Instr} {f : Word → Word → Except FaultReason Word} {d s1 s2 : Word}
    (h : ternaryOp i = some (f, d, s1, s2)) (s : State) :
    exec i s = ternaryShape f d s1 s2 s := by
  cases i <;> simp only [ternaryOp, Option.some.injEq, Prod.mk.injEq, reduceCtorEq] at h <;>
    (obtain ⟨rfl, rfl, rfl, rfl⟩ := h; rfl)

theorem exec_int (n : Byte) (s : State) :
    exec (.int n) s = .next (if h : n.toNat < 4 then
        if s.pushAddr = 0xFFFF then s.takeFault .addressOutOfRange
        else (((s.advance 2).setReg .sp (s.reg .sp + 2)).setWord s.pushAddr ((s.advance 2).reg .ip)).setReg .ip
          (s.reg (.int ⟨n.toNat, h⟩))
      else s.takeFault .invalidVector) := by
  show commit s (if h : n.toNat < 4 then raise (s.advance 2) ⟨n.toNat, h⟩ else badVector) = _
  by_cases h : n.toNat < 4
  · rw [dif_pos h, dif_pos h, raise_eq, pushAddr_advance, reg_advance_other (r := .sp) (by decide),
      reg_advance_other (r := .int ⟨n.toNat, h⟩) (by simp)]
    by_cases h' : s.pushAddr = 0xFFFF
    · rw [if_pos h', if_pos h']; rfl
    · rw [if_neg h', if_neg h']; rfl
  · rw [dif_neg h, dif_neg h]; rfl

theorem exec_push (v : Word) (s : State) :
    exec (.push v) s = .next (if s.pushAddr = 0xFFFF then s.takeFault .addressOutOfRange
      else ((s.advance 3).setReg .sp (s.reg .sp + 2)).setWord s.pushAddr v) := by
  show commit s (push (s.advance 3) v) = _
  rw [push_eq, pushAddr_advance, reg_advance_other (by decide)]
  by_cases h : s.pushAddr = 0xFFFF
  · rw [if_pos h, if_pos h]; rfl
  · rw [if_neg h, if_neg h]; rfl

theorem exec_pop (d : Word) (s : State) :
    exec (.pop d) s = .next (if s.popAddr = 0xFFFF ∨ d = 0xFFFF then s.takeFault .addressOutOfRange
      else (((s.advance 3).setReg .sp (s.reg .sp - 2)).landKey .beforeResult).setWord d ((s.advance 3).word s.popAddr)) := by
  show commit s (match pop (s.advance 3) with | .error r => .error r | .ok (v, t) => writeWord (t.landKey .beforeResult) d v) = _
  rw [pop_eq, popAddr_advance, reg_advance_other (by decide)]
  by_cases h : s.popAddr = 0xFFFF
  · rw [if_pos h, if_pos (Or.inl h)]; rfl
  · rw [if_neg h]
    simp only [writeWord_eq]
    by_cases h' : d = 0xFFFF
    · rw [if_pos h', if_pos (Or.inr h')]; rfl
    · rw [if_neg h', if_neg (not_or.mpr ⟨h, h'⟩)]; rfl

/-! ## While no key store is in progress -/

theorem exec_copy_of_none {s : State} (h : s.overlapKey = none) (d src : Word) :
    exec (.copy d src) s = .next (if src = 0xFFFF ∨ d = 0xFFFF then s.takeFault .addressOutOfRange
      else (s.advance 5).setWord d ((s.advance 5).word src)) := by
  rw [exec_copy, State.landKey_of_none (s := s.advance 5) h]

theorem exec_lnot_of_none {s : State} (h : s.overlapKey = none) (d src : Word) :
    exec (.lnot d src) s = .next (if src = 0xFFFF ∨ d = 0xFFFF then s.takeFault .addressOutOfRange
      else (s.advance 5).setWord d (notOp ((s.advance 5).word src))) := by
  rw [exec_lnot, State.landKey_of_none (s := s.advance 5) h]

theorem exec_pop_of_none {s : State} (h : s.overlapKey = none) (d : Word) :
    exec (.pop d) s = .next (if s.popAddr = 0xFFFF ∨ d = 0xFFFF then s.takeFault .addressOutOfRange
      else ((s.advance 3).setReg .sp (s.reg .sp - 2)).setWord d ((s.advance 3).word s.popAddr)) := by
  rw [exec_pop, State.landKey_of_none (s := (s.advance 3).setReg .sp (s.reg .sp - 2)) h]

theorem exec_ternary_of_none {s : State} (hk : s.overlapKey = none) {i : Instr}
    {f : Word → Word → Except FaultReason Word} {d s1 s2 : Word} (h : ternaryOp i = some (f, d, s1, s2)) :
    exec i s = if d = 0xFFFF ∨ s1 = 0xFFFF ∨ s2 = 0xFFFF then .next (s.takeFault .addressOutOfRange)
      else match f ((s.advance 7).word s1) ((s.advance 7).word s2) with
        | .ok r => .next ((s.advance 7).setWord d r)
        | .error e => .next (s.takeFault e) := by
  rw [exec_ternary h, ternaryShape_eq, State.landKey_of_none (s := s.advance 7) hk,
    State.landKey_of_none (s := s.advance 7) hk, State.landKey_of_none hk] <;> rfl

/-! ## The rest -/

theorem exec_yield (s : State) : exec .yield s = .next (s.advance 1) := rfl

theorem exec_halt (s : State) : exec .halt s = .next { s.advance 1 with status := .halted } := rfl

/-- No instruction ends in a stop of the model: every fault of the hardware is a next state. -/
theorem exec_next (i : Instr) (s : State) : ∃ t, exec i s = .next t := by
  have commit_next : ∀ x : Except FaultReason State, ∃ t, commit s x = .next t := fun x => by cases x <;> exact ⟨_, rfl⟩
  cases h : ternaryOp i with
  | some p =>
    obtain ⟨f, d, s1, s2⟩ := p
    rw [exec_ternary h, ternaryShape_eq]
    split
    · exact ⟨_, rfl⟩
    · split <;> exact ⟨_, rfl⟩
  | none => cases i <;> simp only [ternaryOp, reduceCtorEq] at h <;> first | exact ⟨_, rfl⟩ | exact commit_next _

/-- The one fault of an operator is the zero divisor's. -/
theorem ternaryOp_error {i : Instr} {f : Word → Word → Except FaultReason Word} {d s1 s2 a b : Word} {r : FaultReason}
    (h : ternaryOp i = some (f, d, s1, s2)) (hr : f a b = .error r) : r = .arithmeticFault := by
  cases i <;> simp only [ternaryOp, Option.some.injEq, Prod.mk.injEq, reduceCtorEq] at h <;> obtain ⟨rfl, rfl, rfl, rfl⟩ := h
  case div => rw [divOp_eq] at hr; split at hr <;> cases hr; rfl
  case mod => rw [modOp_eq] at hr; split at hr <;> cases hr; rfl
  all_goals cases hr

/-- Everything a faulting instruction leaves of a running state: the state before with the status of the fault; in an arithmetic
fault, the state before with the key that landed between the source reads. -/
theorem exec_faulted {i : Instr} {s t : State} {r : FaultReason} (hs : s.status = .running) (h : exec i s = .next t)
    (hr : t.status = .faulted r) :
    (r ≠ .arithmeticFault ∧ t = s.takeFault r) ∨
      (r = .arithmeticFault ∧ t = (s.landKey .betweenSources).takeFault .arithmeticFault) := by
  have goes_on : ∀ {u : State}, u.status = .running → ¬ exec i s = .next u := by
    intro u hu e; rw [e] at h; injection h with h; subst h; rw [hu] at hr; cases hr
  have faults : ∀ {e : FaultReason}, e ≠ .arithmeticFault → exec i s = .next (s.takeFault e) →
      (r ≠ .arithmeticFault ∧ t = s.takeFault r) ∨
        (r = .arithmeticFault ∧ t = (s.landKey .betweenSources).takeFault .arithmeticFault) := by
    intro e he e'
    rw [e'] at h; injection h with h; subst h
    injection hr with hr; subst hr
    exact .inl ⟨he, rfl⟩
  have either : ∀ {c : Prop} [Decidable c] {u : State}, u.status = .running →
      exec i s = .next (if c then s.takeFault .addressOutOfRange else u) →
      (r ≠ .arithmeticFault ∧ t = s.takeFault r) ∨
        (r = .arithmeticFault ∧ t = (s.landKey .betweenSources).takeFault .arithmeticFault) := by
    intro c _ u hu e
    split at e
    · exact faults (by decide) e
    · exact absurd e (goes_on hu)
  cases ht : ternaryOp i with
  | some p =>
    obtain ⟨f, d, s1, s2⟩ := p
    have e := exec_ternary ht s
    rw [ternaryShape_eq] at e
    split at e
    · exact faults (by decide) e
    · split at e
      · exact absurd e (goes_on (by simpa using hs))
      · have := ternaryOp_error ht ‹_›
        subst this
        rw [e] at h; injection h with h; subst h
        injection hr with hr; subst hr
        exact .inr ⟨rfl, rfl⟩
  | none =>
    cases i <;> simp only [ternaryOp, reduceCtorEq] at ht
    case brEq a b d => exact absurd (exec_brEq a b d s) (goes_on hs)
    case storeImm d v => exact either (by exact hs) (exec_storeImm d v s)
    case copy d a => exact either (by simpa using hs) (exec_copy d a s)
    case lnot d a => exact either (by simpa using hs) (exec_lnot d a s)
    case int n =>
      have e := exec_int n s
      split at e
      · exact either (by exact hs) e
      · exact faults (by decide) e
    case push v => exact either (by exact hs) (exec_push v s)
    case pop d => exact either (by simpa using hs) (exec_pop d s)
    case yield => exact absurd (exec_yield s) (goes_on hs)
    case halt =>
      rw [exec_halt] at h; injection h with h; subst h; cases hr

end Sys2Proof.Machine
end

