-- ==== Sys2Proof/Laws/PerInstr.lean ====
section
/-! SUPPORT. A statement for all instructions, one lemma per constructor: an encoding is as long as its format says
(spec/30_encoding.md R81, R86). -/

namespace Sys2Proof.Laws.EncodedLength

/-- The encoding of `i` has the length of its opcode's format. -/
def Statement (i : Instr) : Prop := (encode i).length = instrLength i

theorem brEq (a b t : Word) : Statement (.brEq a b t) := rfl
theorem storeImm (d v : Word) : Statement (.storeImm d v) := rfl
theorem copy (d s : Word) : Statement (.copy d s) := rfl
theorem add (d s1 s2 : Word) : Statement (.add d s1 s2) := rfl
theorem sub (d s1 s2 : Word) : Statement (.sub d s1 s2) := rfl
theorem mul (d s1 s2 : Word) : Statement (.mul d s1 s2) := rfl
theorem div (d s1 s2 : Word) : Statement (.div d s1 s2) := rfl
theorem mod (d s1 s2 : Word) : Statement (.mod d s1 s2) := rfl
theorem or (d s1 s2 : Word) : Statement (.or d s1 s2) := rfl
theorem and (d s1 s2 : Word) : Statement (.and d s1 s2) := rfl
theorem xor (d s1 s2 : Word) : Statement (.xor d s1 s2) := rfl
theorem lnot (d s : Word) : Statement (.lnot d s) := rfl
theorem int (n : Byte) : Statement (.int n) := rfl
theorem push (v : Word) : Statement (.push v) := rfl
theorem pop (d : Word) : Statement (.pop d) := rfl
theorem yield : Statement .yield := rfl
theorem halt : Statement .halt := rfl

end Sys2Proof.Laws.EncodedLength
end

