-- ==== Sys2Proof/Laws/Step.lean ====
section
/-! SUPPORT. What a step is made of: reads depend on memory alone, a cycle is a fetch and an exec, and the forms of a cycle that a
key store overlaps. -/

namespace Sys2Proof.Machine

theorem byte_of_mem {s t : State} (h : t.mem = s.mem) (a : Word) : t.byte a = s.byte a := by
  rw [State.byte, State.byte, h]

theorem word_of_mem {s t : State} (h : t.mem = s.mem) (a : Word) : t.word a = s.word a :=
  word_congr fun x _ => byte_of_mem h x

theorem reg_of_mem {s t : State} (h : t.mem = s.mem) (r : Reg) : t.reg r = s.reg r := word_of_mem h _

/-- What is fetched depends on memory alone. -/
theorem fetchBytes_of_mem {s t : State} (h : t.mem = s.mem) : fetchBytes t = fetchBytes s := by
  unfold fetchBytes
  simp only [reg_of_mem h, byte_of_mem h]

theorem fetch_of_mem {s t : State} (h : t.mem = s.mem) : fetch t = fetch s := by
  rw [fetch, fetch, fetchBytes_of_mem h]

theorem cycle_of_fetch {s : State} {i : Instr} (h : fetch s = .ok i) : cycle s = exec i s := by
  rw [cycle, h]

theorem cycle_of_fetch_error {s : State} {r : FaultReason} (h : fetch s = .error r) :
    cycle s = .next (s.takeFault r) := by
  rw [cycle, h]

/-- A cycle never stops the model: it ends in a next state, which may have the status of a fault. -/
theorem cycle_next (s : State) : ∃ t, cycle s = .next t := by
  cases h : fetch s with
  | ok i => rw [cycle_of_fetch h]; exact exec_next i s
  | error r => exact ⟨_, cycle_of_fetch_error h⟩

theorem step_of_running {s : State} (h : s.status = .running) : step s = runTurn (takeTurn s).1 (takeTurn s).2 := by
  unfold step
  rw [h]

/-- Only a running machine has a next state. -/
theorem running_of_step {s t : State} (h : step s = .next t) : s.status = .running := by
  unfold step at h
  split at h
  · assumption
  · cases h
  · cases h

theorem cycleWithKey_of_fetch {s t : State} {p : KeyPoint} {key : Byte} {i : Instr} (hk : s.kbdReq = .enabled)
    (hf : fetch s = .ok i) (h : exec i (State.landKey .afterFetch { s with overlapKey := some (p, key) }) = .next t) :
    cycleWithKey p key s = .next (settleKey t) := by
  unfold cycleWithKey
  split
  · simp only [hf, h]
  · simp_all
  · simp_all

theorem cycleWithKey_of_fetch_error {s : State} {p : KeyPoint} {key : Byte} {r : FaultReason} (hk : s.kbdReq = .enabled)
    (hf : fetch s = .error r) : cycleWithKey p key s = .next (s.takeFault r) := by
  unfold cycleWithKey
  split
  · simp only [hf]
  · simp_all
  · simp_all

theorem cycleWithKey_of_not_enabled {s : State} {p : KeyPoint} {key : Byte} (hk : s.kbdReq ≠ .enabled) :
    cycleWithKey p key s = cycle s := by
  unfold cycleWithKey
  split
  · exact absurd ‹_› hk
  · rfl
  · rfl

/-- Settling clears the overlap, and keeps everything but, in a running state, what the landing key changes. -/
theorem settleKey_cases (s : State) :
    (s.status = .running ∧ settleKey s = { s.landPending with overlapKey := none }) ∨
      (s.status ≠ .running ∧ settleKey s = { s with overlapKey := none }) := by
  unfold settleKey
  split <;> simp_all

end Sys2Proof.Machine
end

