-- ==== Sys2Proof/Tests/Slice0.lean ====
section
/-! SUPPORT. Tests by evaluation. Expected values come from spec/95_test_vectors.md: the vector's id stands in the docstring.
The witnesses at the end meet, on concrete states, the premises of the statements in Certificates/Slice0/Obligations.lean. -/

namespace Sys2Proof.Machine.Tests

/-! ## Helpers -/

/-- A running machine with words stored, IP at `at_`, and an instruction's bytes there. -/
def prep (ws : List (Word × Word)) (at_ : Word) (code : List Byte) : State :=
  storeBytes ((ws.foldl (fun s p => s.setWord p.1 p.2) State.reset).setReg .ip at_) at_ code

/-- What holds of the next state. -/
def goes (r : Result) (p : State → Bool) : Bool :=
  match r with
  | .next t => p t
  | .fault _ => false
  | .refused _ => false

/-- One step from `prep` is Running afterwards and the listed words read as listed. -/
def runs (ws : List (Word × Word)) (at_ : Word) (code : List Byte) (after : List (Word × Word)) : Bool :=
  goes (step (prep ws at_ code)) fun t => decide (t.status = .running) && after.all fun p => t.word p.1 == p.2

/-- One step from `prep` ends in that fault, with memory as it was. -/
def faults (ws : List (Word × Word)) (at_ : Word) (code : List Byte) (r : FaultReason) : Bool :=
  goes (step (prep ws at_ code)) fun t =>
    decide (t.status = .faulted r) && decide (t.mem = (prep ws at_ code).mem)

/-! ## Well-formedness and decoding -/

/-- R6: VB_SIZE is the number of rows times the number of columns. -/
theorem test_vbSize : vbSize = vbRows * vbCols := by decide

/-- R84: a vector is 0..3; every other field is taken whole, so this is the one check, and it refuses 4. -/
theorem test_wellFormed_refuses_vector_4 :
    (Instr.int 4).wellFormed = false ∧ (Instr.int 0xFF).wellFormed = false ∧ (Instr.int 3).wellFormed = true := by decide

/-- F3W, written out from R81 and R86. -/
theorem test_decode_three_words :
    decode [0x3F, 0x05, 0x00, 0x06, 0x01, 0x00, 0x02] = .ok (.brEq 0x0005 0x0106 0x0200, []) ∧
    decode [0x2B, 0x04, 0x00, 0x02, 0x10, 0x00, 0x80] = .ok (.add 0x0004 0x1002 0x8000, []) ∧
    decode [0x2D, 0x04, 0x00, 0x02, 0x10, 0x00, 0x80] = .ok (.sub 0x0004 0x1002 0x8000, []) ∧
    decode [0x2A, 0x04, 0x00, 0x02, 0x10, 0x00, 0x80] = .ok (.mul 0x0004 0x1002 0x8000, []) ∧
    decode [0x2F, 0x04, 0x00, 0x02, 0x10, 0x00, 0x80] = .ok (.div 0x0004 0x1002 0x8000, []) ∧
    decode [0x6D, 0x04, 0x00, 0x02, 0x10, 0x00, 0x80] = .ok (.mod 0x0004 0x1002 0x8000, []) ∧
    decode [0x6F, 0x04, 0x00, 0x02, 0x10, 0x00, 0x80] = .ok (.or 0x0004 0x1002 0x8000, []) ∧
    decode [0x61, 0x04, 0x00, 0x02, 0x10, 0x00, 0x80] = .ok (.and 0x0004 0x1002 0x8000, []) ∧
    decode [0x78, 0x04, 0x00, 0x02, 0x10, 0x00, 0x80] = .ok (.xor 0x0004 0x1002 0x8000, []) := by decide

/-- F2W, F1W, F1B and F0, written out from R81 and R86; what follows is left over. -/
theorem test_decode_the_rest :
    decode [0x3D, 0x00, 0x03, 0xCD, 0xAB] = .ok (.storeImm 0x0300 0xABCD, []) ∧
    decode [0x6C, 0x01, 0x03, 0x00, 0x83] = .ok (.copy 0x0301 0x8300, []) ∧
    decode [0x6E, 0x00, 0x00, 0x02, 0x80] = .ok (.lnot 0x0000 0x8002, []) ∧
    decode [0x70, 0x34, 0x12] = .ok (.push 0x1234, []) ∧
    decode [0x50, 0x0E, 0x80] = .ok (.pop 0x800E, []) ∧
    decode [0x69, 0xFF] = .ok (.int 0xFF, []) ∧
    decode [0x68] = .ok (.yield, []) ∧
    decode [0x48, 0x99] = .ok (.halt, [0x99]) := by decide

/-- Y5, Y6, Y8: no opcode, the other case of an opcode, an opcode without its operands. -/
theorem test_decode_refuses_by_name :
    decode [0x00] = .error (.unrecognizedOpcode 0x00) ∧ decode [0x4C, 0, 0, 0, 0] = .error (.unrecognizedOpcode 0x4C) ∧
    decode [0x3F] = .error (.truncated .brEq) := by decide

/-- The numbering of spec/opcode_table.json: the opcode byte is the least significant byte. -/
theorem test_decodeTableWord :
    decodeTableWord 56 0x0200000600053F = some (.brEq 0x0005 0x0006 0x0200) ∧ decodeTableWord 16 0x0269 = some (.int 2) ∧
    decodeTableWord 8 0x48 = some .halt ∧ decodeTableWord 8 0x3D = some (.storeImm 0 0) ∧
    decodeTableWord 8 0x33 = none := by decide

/-- The placed instruction is the first one run after reset. -/
theorem test_withFetchWord :
    goes (step (State.reset.withFetchWord 40 0xABCD03003D)) (fun t => decide (t.status = .running) && t.word 0x0300 == 0xABCD) = true ∧
    goes (step (State.reset.withFetchWord 8 0x48)) (fun t => decide (t.status = .halted)) = true := by decide

/-! ## One step each -/

/-- B1, B2, B4. -/
theorem test_brEq_compares : runs [] 0x0100 [0x3F, 5, 0, 5, 0, 0, 2] [(0x000E, 0x0200)] = true ∧
    runs [] 0x0100 [0x3F, 5, 0, 6, 0, 0, 2] [(0x000E, 0x0107)] = true ∧
    runs [] 0xFFF9 [0x3F, 1, 0, 2, 0, 0, 0] [(0x000E, 0x0000)] = true := by decide

/-- B6, B5. -/
theorem test_brEq_literals_and_top :
    runs [(0, 7), (2, 7)] 0x0100 [0x3F, 0, 0, 2, 0, 0, 2] [(0x000E, 0x0107)] = true ∧
    faults [] 0xFFFA [0x3F, 1, 0, 1, 0, 0] .addressOutOfRange = true := by decide

/-- T1, T2, T5. -/
theorem test_storeImm : runs [] 0x0100 [0x3D, 0x00, 0x03, 0xCD, 0xAB] [(0x0300, 0xABCD), (0x02FF, 0xCD00), (0x000E, 0x0105)] = true ∧
    runs [] 0x0100 [0x3D, 0x0E, 0x00, 0x00, 0x04] [(0x000E, 0x0400)] = true ∧
    runs [(0x0C, 1)] 0x0100 [0x3D, 0x0D, 0x00, 0x80, 0x22] [(0x000C, 0x8001), (0x000E, 0x0122)] = true := by decide

/-- T3, T4. -/
theorem test_storeImm_top : faults [] 0x0100 [0x3D, 0xFF, 0xFF, 0x01, 0x00] .addressOutOfRange = true ∧
    runs [] 0x0100 [0x3D, 0xFE, 0xFF, 0x34, 0x12] [(0xFFFE, 0x1234), (0x000E, 0x0105)] = true := by decide

/-- L1, L3. -/
theorem test_copy : runs [] 0x0100 [0x6C, 0x00, 0x00, 0x0E, 0x00] [(0x0000, 0x0105), (0x000E, 0x0105)] = true ∧
    runs [(0x300, 0x1122), (0x302, 0x3344)] 0x0100 [0x6C, 0x01, 0x03, 0x00, 0x03] [(0x0300, 0x2222), (0x0302, 0x3311)] = true := by
  decide

/-- L4, L5. -/
theorem test_copy_latch_and_top :
    runs [(0x18, 0x7F41)] 0x0100 [0x6C, 0x00, 0x00, 0x18, 0x00] [(0x0000, 0x7F41)] = true ∧
    faults [] 0x0100 [0x6C, 0x00, 0x00, 0xFF, 0xFF] .addressOutOfRange = true := by decide

/-- The frame of A1 to A23: `op R2 R0 R1` at `0x0100`. -/
def alu (op : Byte) (a b r : Word) : Bool :=
  runs [(0, a), (2, b)] 0x0100 [op, 4, 0, 0, 0, 2, 0] [(4, r), (0x000E, 0x0107), (0, a), (2, b), (0x000C, 0)]

/-- A1, A2, A25. -/
theorem test_add : alu 0x2B 5 7 12 = true ∧ alu 0x2B 0xFFFF 1 0 = true ∧
    runs [(2, 0x10)] 0x0100 [0x2B, 0x0E, 0, 0x0E, 0, 2, 0] [(0x000E, 0x0117)] = true := by decide

/-- A24, A26. -/
theorem test_add_overlap_and_top : runs [(0, 0x4000)] 0x0100 [0x2B, 0, 0, 0, 0, 0, 0] [(0, 0x8000)] = true ∧
    faults [] 0x0100 [0x2B, 0xFF, 0xFF, 0, 0, 2, 0] .addressOutOfRange = true := by decide

/-- A4, A5, A30. -/
theorem test_sub : alu 0x2D 0 1 0xFFFF = true ∧ alu 0x2D 0x8000 1 0x7FFF = true ∧
    runs [(8, 6), (2, 4)] 0x0100 [0x2D, 8, 0, 8, 0, 2, 0] [(8, 2)] = true := by decide

/-- A7, A8. -/
theorem test_mul : alu 0x2A 300 300 0x5F90 = true ∧ alu 0x2A 0xFFFF 0xFFFF 1 = true := by decide

/-- A10, A12. -/
theorem test_div : alu 0x2F 7 2 3 = true ∧ alu 0x2F 0x8000 0xFFFF 0 = true := by decide

/-- A14, A27. -/
theorem test_div_faults : faults [(0, 5)] 0x0100 [0x2F, 4, 0, 0, 0, 2, 0] .arithmeticFault = true ∧
    faults [] 0x0100 [0x2F, 0xFF, 0xFF, 0, 0, 2, 0] .addressOutOfRange = true := by decide

/-- A16, A17. -/
theorem test_mod : alu 0x6D 7 2 1 = true ∧ alu 0x6D 0xFFFF 0x10 0x0F = true := by decide

/-- A19. -/
theorem test_mod_faults : faults [(0, 9)] 0x0100 [0x6D, 4, 0, 0, 0, 2, 0] .arithmeticFault = true := by decide

/-- A20, A28. -/
theorem test_or : alu 0x6F 0x00F0 0x0F0F 0x0FFF = true ∧
    runs [(0x0C, 0x4001), (2, 0x8000)] 0x0100 [0x6F, 0x0C, 0, 0x0C, 0, 2, 0] [(0x000C, 0xC001)] = true := by decide

/-- A21, A29. -/
theorem test_and : alu 0x61 0x00FF 0x0F0F 0x000F = true ∧
    runs [(0x0C, 0xC001), (2, 0x7FFF)] 0x0100 [0x61, 0x0C, 0, 0x0C, 0, 2, 0] [(0x000C, 0x4001)] = true := by decide

/-- A22, A23. -/
theorem test_xor : alu 0x78 0x00FF 0x0F0F 0x0FF0 = true ∧ alu 0x78 0x1234 0xFFFF 0xEDCB = true := by decide

/-- N1, N3. -/
theorem test_lnot : runs [(0, 0x5555), (2, 0)] 0x0100 [0x6E, 0, 0, 2, 0] [(0, 1), (0x000E, 0x0105)] = true ∧
    runs [(0, 0x5555), (2, 0x8000)] 0x0100 [0x6E, 0, 0, 2, 0] [(0, 0)] = true := by decide

/-- N5, N6. -/
theorem test_lnot_reads_next : runs [] 0x0100 [0x6E, 0, 0, 0x0E, 0] [(0, 0)] = true ∧
    runs [(0, 9)] 0xFFFB [0x6E, 0, 0, 0x0E, 0] [(0, 1), (0x000E, 0)] = true := by decide

/-- K1, K2, K5, K6. -/
theorem test_push : runs [(0x0A, 0x800)] 0x0100 [0x70, 0x34, 0x12] [(8, 2), (0x07FE, 0x1234), (0x000E, 0x0103)] = true ∧
    runs [(8, 0xFFFE), (0x0A, 0x800)] 0x0100 [0x70, 0xAA, 0xAA] [(8, 0), (0x0800, 0xAAAA)] = true ∧
    runs [(0x0A, 0x10)] 0x0100 [0x70, 0x00, 0x03] [(8, 2), (0x000E, 0x0300)] = true ∧
    runs [(0x0A, 0x0A)] 0x0100 [0x70, 0x77, 0x07] [(8, 0x0777), (0x0A, 0x0A), (0x000E, 0x0103)] = true := by decide

/-- K4. -/
theorem test_push_faults : faults [(0x0A, 1)] 0x0100 [0x70, 0xAA, 0xAA] .addressOutOfRange = true := by decide

/-- K7, K8, K9, K10. -/
theorem test_pop :
    runs [(8, 2), (0x0A, 0x800), (0x7FE, 0x1234)] 0x0100 [0x50, 2, 0] [(2, 0x1234), (8, 0), (0x000E, 0x0103), (0x07FE, 0x1234)] = true ∧
    runs [(8, 2), (0x0A, 0x800), (0x7FE, 0x35)] 0x0100 [0x50, 0x0E, 0] [(8, 0), (0x000E, 0x35)] = true ∧
    runs [(8, 4), (0x0A, 0x800), (0x7FC, 0x222)] 0x0100 [0x50, 8, 0] [(8, 0x222)] = true ∧
    runs [(0x0A, 0x800), (0x800, 0x4242)] 0x0100 [0x50, 2, 0] [(2, 0x4242), (8, 0xFFFE)] = true := by decide

/-- K11, K12. -/
theorem test_pop_faults : faults [(8, 2), (0x0A, 0x800)] 0x0100 [0x50, 0xFF, 0xFF] .addressOutOfRange = true ∧
    faults [(8, 1)] 0x0100 [0x50, 2, 0] .addressOutOfRange = true := by decide

/-- I1, I2, I5. -/
theorem test_int :
    runs [(8, 2), (0x0A, 0x800), (0x14, 0x33)] 0x0100 [0x69, 2] [(8, 4), (0x07FC, 0x0102), (0x000E, 0x33)] = true ∧
    runs [(0x0A, 0x800), (0x10, 0x600)] 0x0100 [0x69, 0] [(8, 2), (0x07FE, 0x0102), (0x000E, 0x600), (0x000C, 0)] = true ∧
    runs [(0x0A, 0x14), (0x12, 0x900)] 0x0100 [0x69, 1] [(8, 2), (0x0012, 0x0102), (0x000E, 0x900)] = true := by decide

/-- I3, I6, I8, F3. -/
theorem test_int_faults : faults [(0x0A, 0x800)] 0x0100 [0x69, 4] .invalidVector = true ∧
    faults [] 0xFFFF [0x69] .addressOutOfRange = true ∧
    faults [(0x0A, 1), (0x12, 0x900)] 0x0100 [0x69, 1] .addressOutOfRange = true ∧
    faults [(0x0A, 1)] 0x0100 [0x69, 4] .invalidVector = true := by decide

/-- Y1, Y2. -/
theorem test_yield : runs [] 0x0100 [0x68] [(0x000E, 0x0101)] = true ∧ runs [] 0xFFFF [0x68] [(0x000E, 0)] = true := by decide

/-- Y3. -/
theorem test_halt : goes (step (prep [] 0x0100 [0x48])) (fun t =>
    decide (t.status = .halted) && t.word 0x000E == 0x0101 && decide (exitCode t.status = some 0)) = true := by decide

/-- Y5, Y6, Y7. -/
theorem test_unrecognized : faults [] 0x0100 [0x00] .unrecognizedOpcode = true ∧
    faults [] 0x0100 [0x4C] .unrecognizedOpcode = true ∧ faults [] 0xFFFF [0x01] .unrecognizedOpcode = true := by decide

/-! ## The agents -/

/-- The state of X1. -/
def x1 (sb fl : Word) : State :=
  { prep [(0x0A, sb), (0x0C, fl), (0x10, 0x3C), (0x12, 0x50)] 0x35 [] with timerReq := .armed, schedule := [.timer] }

/-- X1, G3. -/
theorem test_timer_delivers : goes (step (x1 0x800 0x8000)) (fun t =>
      t.word 8 == 2 && t.word 0x07FE == 0x35 && t.word 0x0E == 0x3C && t.word 0x0C == 0x8000 && decide (t.timerReq = .idle)) = true ∧
    goes (step (x1 0x800 0)) (fun t => t.word 0x0E == 0x3C) = true := by decide

/-- X2. -/
theorem test_keyboard_delivers : goes (step { prep [(8, 2), (0x0A, 0x800), (0x0C, 0x8000), (0x12, 0x50), (0x7FE, 0x35)] 0x3C [] with
      kbdReq := .latched, schedule := [.keyboard none] }) (fun t =>
    t.word 8 == 4 && t.word 0x07FC == 0x3C && t.word 0x07FE == 0x35 && t.word 0x0E == 0x50 && decide (t.kbdReq = .idle)) = true := by
  decide

/-- X3. -/
theorem test_timer_faults : goes (step (x1 1 0)) (fun t =>
    decide (t.status = .faulted .addressOutOfRange) && decide (t.mem = (x1 1 0).mem)) = true := by decide

/-- A turn of an idle agent. -/
def idleTurn (fl : Word) (turn : Turn) (p : State → Bool) : Bool :=
  goes (step { prep [(0x0C, fl)] 0x100 [] with schedule := [turn] }) p

/-- G1, G2, G4, G7. -/
theorem test_ie_test : idleTurn 0 .timer (fun t => decide (t.timerReq = .idle)) = true ∧
    idleTurn 0x8000 .timer (fun t => decide (t.timerReq = .armed)) = true ∧
    idleTurn 0x7FFF .timer (fun t => decide (t.timerReq = .idle)) = true ∧
    idleTurn 0x7FFF (.keyboard (some 0x41)) (fun t => decide (t.kbdReq = .idle) && t.kb == 0) = true ∧
    idleTurn 0x8000 (.keyboard (some 0x41)) (fun t => decide (t.kbdReq = .enabled) && t.kb == 0) = true := by decide

/-- A poll. -/
def poll (input : Option Byte) (p : State → Bool) : Bool :=
  goes (step { prep [(0x18, 0x7F00), (0x0C, 0x8000)] 0x100 [] with kbdReq := .enabled, schedule := [.keyboard input] }) p

/-- G5, G6. -/
theorem test_poll : poll (some 0x41) (fun t => t.word 0x18 == 0x7F41 && decide (t.kbdReq = .latched)) = true ∧
    poll none (fun t => t.word 0x18 == 0x7F00 && decide (t.kbdReq = .idle)) = true := by decide

/-- U9: `- R2 KB KB` while the byte `0x41` arrives reads `0x7F00` first and `0x7F41` second. -/
theorem test_overlapping_key : goes (step { prep [(0x18, 0x7F00)] 0x100 [0x2D, 4, 0, 0x18, 0, 0x18, 0] with
      kbdReq := .enabled, schedule := [.cpuWithKey .betweenSources 0x41] }) (fun t =>
    t.word 4 == 0xFFBF && t.word 0x18 == 0x7F41 && decide (t.kbdReq = .latched)) = true := by decide

/-- R61, R68: `l KB R1` and `l R0 KB` while the byte `0x41` arrives after the fetch or before the result. -/
theorem test_overlapping_key_elsewhere :
    goes (step { prep [(2, 0x77)] 0x100 [0x6C, 0x18, 0, 2, 0] with
      kbdReq := .enabled, schedule := [.cpuWithKey .beforeResult 0x41] }) (fun t => t.kb == 0x77 && decide (t.kbdReq = .latched)) = true ∧
    goes (step { prep [(2, 0x77)] 0x100 [0x6C, 0, 0, 0x18, 0] with
      kbdReq := .enabled, schedule := [.cpuWithKey .afterFetch 0x41] }) (fun t => t.word 0 == 0x41 && t.kb == 0x41) = true ∧
    goes (step { prep [(2, 0x77)] 0x100 [0x6C, 0, 0, 0x18, 0] with
      kbdReq := .enabled, schedule := [.cpuWithKey .beforeResult 0x41] }) (fun t => t.word 0 == 0 && t.kb == 0x41) = true := by decide

/-- What `goes` shows. -/
theorem of_goes {r : Result} {p : State → Bool} (h : goes r p = true) : ∃ t, r = .next t ∧ p t = true := by
  cases r with
  | next t => exact ⟨t, rfl, h⟩
  | fault _ => cases h
  | refused _ => cases h

/-- Whether an operation did not fault. -/
def succeeds (x : Except FaultReason State) : Bool :=
  match x with
  | .ok _ => true
  | .error _ => false

/-- What `succeeds` shows. -/
theorem of_succeeds {x : Except FaultReason State} (h : succeeds x = true) : ∃ t, x = .ok t := by
  cases x with
  | ok t => exact ⟨t, rfl⟩
  | error _ => cases h

/-! ## Witnesses: concrete states and operands that meet the premises of the statements -/

/-- IP at `0x0100`, SP 2, SB `0x0800`, FL `0x8000`, handlers set, and the code given. -/
def busy (code : List Byte) : State :=
  prep [(8, 2), (0x0A, 0x800), (0x0C, 0x8000), (0x10, 0x3C), (0x12, 0x50), (2, 7), (4, 3)] 0x0100 code

/-- SB 1 and SP 0: the next push would store at `0xFFFF`. -/
def brim (code : List Byte) : State := prep [(0x0A, 1)] 0x0100 code

/-- The invariant that several statements have as a premise, on the states used below. -/
theorem witness_inv : (busy []).Inv ∧ (busy [0x68]).Inv ∧ (busy [0x48]).Inv ∧ (brim []).Inv ∧ (brim [0x69, 4]).Inv :=
  ⟨⟨by decide, by decide⟩, ⟨by decide, by decide⟩, ⟨by decide, by decide⟩, ⟨by decide, by decide⟩, ⟨by decide, by decide⟩⟩

theorem witness_DecodedBytesAreTheEncoding : decode [0x69, 0x02, 0xAA] = .ok (.int 2, [0xAA]) := by decide

/-- The first and the last legal byte, and their neighbours. -/
theorem witness_IllegalOpcodeBytesAreTheOthers : (0x29 : Byte) ∉ legalOpcodeBytes ∧ opcodeOfByte 0x2A = some .mul ∧
    opcodeOfByte 0x78 = some .xor ∧ (0x79 : Byte) ∉ legalOpcodeBytes := by decide

/-- The last place where the longest instruction fits. -/
theorem witness_OperandWordsFollowTheOpcode :
    let s := prep [] 0xFFF9 [0x2B, 1, 2, 3, 4, 5, 6]
    opcodeOfByte (s.byte (s.reg .ip)) = some .add ∧ (s.reg .ip).toNat + opcodeLength .add = 0x10000 := by decide

/-- One place further, the last place, and no opcode at the last byte. -/
theorem witness_InstructionPastTheTopFaults :
    (let s := prep [] 0xFFFA [0x2B]
     opcodeOfByte (s.byte (s.reg .ip)) = some .add ∧ (s.reg .ip).toNat + opcodeLength .add - 1 = 0x10000) ∧
    (let s := prep [] 0xFFF9 [0x2B]
     opcodeOfByte (s.byte (s.reg .ip)) = some .add ∧ (s.reg .ip).toNat + opcodeLength .add - 1 = 0xFFFF) ∧
    (let s := prep [] 0xFFFF [0x01]
     opcodeOfByte (s.byte (s.reg .ip)) = none) := by decide

theorem witness_UnrecognizedOpcodeEndsTheRun :
    (busy [0x00]).status = .running ∧ (takeTurn (busy [0x00])).1 = .cpu ∧
    (takeTurn { busy [0x00] with schedule := [.cpuWithKey .afterFetch 1] }).1 = .cpuWithKey .afterFetch 1 ∧
    (busy [0x00]).byte ((busy [0x00]).reg .ip) ∉ legalOpcodeBytes := by decide

theorem witness_StepRunsTheDecodedInstruction :
    (busy [0x69, 0x02]).status = .running ∧ decode (fetchBytes (busy [0x69, 0x02])) = .ok (.int 2, [0, 0, 0, 0, 0]) ∧
    (busy [0x69, 0x02]).schedule = [] ∧ ({ busy [0x69, 0x02] with schedule := [.cpu, .timer] } : State).schedule = [.cpu, .timer] ∧
    (let s : State := { busy [0x69, 0x02] with kbdReq := .latched, schedule := [.cpuWithKey .beforeResult 1] }
     s.status = .running ∧ s.schedule = .cpuWithKey .beforeResult 1 :: [] ∧ s.kbdReq ≠ .enabled) := by
  decide

/-- At IP = 0, and where the code would cover the IP cell. -/
theorem witness_FetchWordIsRunByTheNextStep :
    State.reset.mem.wf = true ∧ (prep [] 0x000C []).mem.wf = true ∧ decodeTableWord 16 0x0269 = some (.int 2) := by decide

/-- The first and the last address of a word, and one that is not 0. -/
theorem witness_WordsAreLittleEndian : (busy []).mem.wf = true ∧ (0x0000 : Word) ≠ 0xFFFF ∧ (0xFFFE : Word) ≠ 0xFFFF ∧
    (0xFFFE : Word) ≠ 0 ∧ (0x0001 : Word) ≠ 0 := by decide

theorem witness_WordAccessAtTheTopFaults :
    (0xFFFF#16 ∈ storedWords (.storeImm 0xFFFF 1) (busy [])) ∧ (0xFFFF#16 ∈ loadedWords (.copy 0 0xFFFF) (busy [])) ∧
    (0xFFFF#16 ∈ storedWords (.int 3) (brim [])) ∧ (3 : Byte).toNat < 4 ∧ (brim []).pushAddr = 0xFFFF := by decide

theorem witness_RegistersAreSeparateCells : (busy []).mem.wf = true ∧ Reg.int 0 ≠ Reg.ip ∧ Reg.int 0 ≠ Reg.int 1 := by decide

/-- The three source words that cover a byte of the IP cell, each not zero as a divisor, a zero divisor, and a stack address; the
invariant is `witness_inv`. Values by hand from R68 with IP = `0x0100`. -/
theorem witness_SourcesAreReadAfterIpAdvances : (0xFFFE : Word) ≠ 0xFFFF ∧ (0x000D : Word) ≠ 0xFFFF ∧
    (busy []).sourceWord 7 0x000E = 0x0107 ∧ (busy []).sourceWord 7 0x000D = 0x0780 ∧ (busy []).sourceWord 7 0x000F = 0x3C01 ∧
    (busy []).sourceWord 7 0xFFFE = 0 ∧ (busy []).popAddr ≠ 0xFFFF := by decide

theorem witness_BranchComparesLiterals : (busy []).mem.wf = true ∧ (0xFFFF : Word) = 0xFFFF ∧ (0x8000 : Word) ≠ 0x0000 := by decide

theorem witness_StoreImmediateWritesTheLiteral : (busy []).mem.wf = true ∧ (0xFFFE : Word) ≠ 0xFFFF ∧ apartReg 0xFFFE .ip ∧
    apartReg 0x0010 .ip ∧ ¬ apartReg 0x000F .ip := by
  simp only [apart_iff]
  decide

theorem witness_CopyMovesTheWord : (busy []).mem.wf = true ∧ (0xFFFE : Word) ≠ 0xFFFF ∧ (0x000E : Word) ≠ 0xFFFF ∧
    apartReg 0x000C .ip ∧ ¬ apartReg 0x000E .ip := by
  simp only [apart_iff]
  decide

/-- For the eight three-address statements: the last legal addresses, and a divisor that is not zero and one that is. -/
theorem witness_three_address : (busy []).Inv ∧ (0xFFFE : Word) ≠ 0xFFFF ∧ (0xFFFD : Word) ≠ 0xFFFF ∧ apartReg 0xFFFE .ip ∧
    ((busy []).advance 7).word 2 ≠ 0 ∧ ((busy []).advance 7).word 0xFFFE = 0 :=
  ⟨⟨by decide, by decide⟩, by decide, by decide, by simp only [apart_iff]; decide, by decide, by decide⟩

/-- `n`: a zero source and another. -/
theorem witness_LogicalNotIsATruthValue : (busy []).mem.wf = true ∧ ((busy []).advance 5).word 0xFFFE = 0 ∧
    ((busy []).advance 5).word 2 ≠ 0 ∧ apartReg 0x0010 .ip := by
  simp only [apart_iff]
  decide

/-- A cycle that a key store overlaps, its divisor not zero with the key, and zero with another key. -/
theorem witness_OverlappingKeyReachesTheSecondSource :
    (let s : State := { busy [] with kbdReq := .enabled, overlapKey := some (.betweenSources, 0x41) }
     s.mem.wf = true ∧ s.kbdReq = .enabled ∧ s.overlapKey = some (.betweenSources, 0x41) ∧ ((s.advance 7).setByte kbAddr 0x41).word 0x18 ≠ 0 ∧
       kbAddr ∉ cells 0x0019 ∧ kbAddr ∉ cells 0x0016) ∧
    (let s : State := { busy [] with kbdReq := .enabled, overlapKey := some (.betweenSources, 0) }
     ((s.advance 7).setByte kbAddr 0).word 0x18 = 0) := by decide

/-- `l R0 KB` at IP. -/
theorem witness_OverlappingKeyAfterTheFetch :
    let s : State := { busy [0x6C, 0, 0, 0x18, 0] with kbdReq := .enabled, schedule := [.cpuWithKey .afterFetch 0x41] }
    s.mem.wf = true ∧ s.overlapKey = none ∧ s.status = .running ∧ s.schedule = .cpuWithKey .afterFetch 0x41 :: [] ∧
      s.kbdReq = .enabled ∧ fetch s = .ok (.copy 0 0x18) := by decide

/-- A result word that covers KB, and the nearest one that does not. -/
theorem witness_OverlappingKeyBeforeTheResult :
    (let s : State := { busy [] with kbdReq := .enabled, overlapKey := some (.beforeResult, 0x41) }
     s.mem.wf = true ∧ s.status = .running ∧ s.kbdReq = .enabled ∧ s.overlapKey = some (.beforeResult, 0x41) ∧
       hasPoint .beforeResult (.copy 0x17 0) = true ∧ storedWords (.copy 0x17 0) s = [0x17] ∧ storedWords (.pop 0x19) s = [0x19] ∧
       kbAddr ∈ cells 0x17 ∧ kbAddr ∉ cells 0x19) ∧
    goes (exec (.copy 0x17 0) { busy [] with kbdReq := .enabled, overlapKey := none }) (fun t => decide (t.status = .running)) = true ∧
    goes (exec (.pop 0x19) { busy [] with kbdReq := .enabled, overlapKey := none }) (fun t => decide (t.status = .running)) = true := by
  decide

/-- `- R2 KB KB` and `l R0 KB` with a key at a point of theirs, and a byte that is no opcode. -/
theorem witness_OverlappingKeyStepRunsExecAtItsPoint :
    (let s : State := { busy [0x2D, 4, 0, 0x18, 0, 0x18, 0] with kbdReq := .enabled, schedule := [.cpuWithKey .betweenSources 0x41] }
     s.mem.wf = true ∧ s.overlapKey = none ∧ s.status = .running ∧ s.schedule = .cpuWithKey .betweenSources 0x41 :: [] ∧
       s.kbdReq = .enabled ∧ fetch s = .ok (.sub 4 0x18 0x18) ∧ hasPoint .betweenSources (.sub 4 0x18 0x18) = true) ∧
    (let s : State := { busy [0x6C, 0, 0, 0x18, 0] with kbdReq := .enabled, schedule := [.cpuWithKey .beforeResult 0x41] }
     s.mem.wf = true ∧ fetch s = .ok (.copy 0 0x18) ∧ hasPoint .beforeResult (.copy 0 0x18) = true) ∧
    fetch { busy [0x00] with kbdReq := .enabled, schedule := [.cpuWithKey .afterFetch 0x41] } = .error .unrecognizedOpcode := by decide

/-- A cycle after which the run goes on, and one after which it does not. -/
theorem witness_OverlappingKeyIsAPollAfterTheCycle :
    (let s : State := { busy [0x68] with kbdReq := .enabled, schedule := [.cpuWithKey .beforeResult 0x41] }
     s.status = .running ∧ s.schedule = .cpuWithKey .beforeResult 0x41 :: [] ∧ fetch s = .ok .yield ∧
       hasPoint .beforeResult .yield = false ∧
       goes (exec .yield { s with schedule := [] }) (fun t => decide (t.status = .running)) = true) ∧
    (let s : State := { busy [0x48] with kbdReq := .enabled, schedule := [.cpuWithKey .betweenSources 0x41] }
     s.status = .running ∧ fetch s = .ok .halt ∧ hasPoint .betweenSources .halt = false ∧
       goes (exec .halt { s with schedule := [] }) (fun t => decide (t.status ≠ .running)) = true) := by decide

/-- For `p`, `P`, `i`, `raise`, push then pop, and the return from a handler. -/
theorem witness_stack : (busy []).mem.wf = true ∧ (busy []).pushAddr = 0x07FC ∧ (busy []).popAddr = 0x07FE ∧
    apartReg (busy []).pushAddr .sp ∧ apartReg (busy []).pushAddr .sb ∧ apartReg (busy []).pushAddr .ip ∧
    apartReg (busy []).pushAddr .fl ∧ apartReg (busy []).popAddr .ip ∧ apartReg 0x000A .sp ∧ apartReg 0x0010 .ip ∧
    (3 : Byte).toNat < 4 ∧ 4 ≤ (4 : Byte).toNat := by
  simp only [apart_iff]
  decide

/-- Three words pushed from SP = 0. -/
theorem witness_StackHoldsThePushedWords :
    let s := prep [(0x0A, 0x800)] 0x0100 []
    s.mem.wf = true ∧ s.reg .sp = 0 ∧ 2 * [(1 : Word), 2, 3].length < 65536 ∧ apartReg (s.reg .sb) .sp ∧
    (∀ j < [(1 : Word), 2, 3].length, s.reg .sb - BitVec.ofNat 16 (2 * (j + 1)) ≠ 0xFFFF ∧
      apartReg (s.reg .sb - BitVec.ofNat 16 (2 * (j + 1))) .sp ∧ apartReg (s.reg .sb - BitVec.ofNat 16 (2 * (j + 1))) .sb) := by
  simp only [apart_iff]
  decide

/-- `h` and `H`, at the last address too. -/
theorem witness_YieldOnlyAdvances_HaltEndsTheRun : (busy []).mem.wf = true ∧ (prep [] 0xFFFF [0x68]).mem.wf = true ∧
    (prep [] 0xFFFF [0x68]).reg .ip = 0xFFFF := by decide

theorem witness_OnlyHaltHalts : ∃ t, step (busy [0x48]) = .next t ∧ decide (t.status = .halted) = true :=
  of_goes (by decide)

theorem witness_EndedRunsTakeNoStep : ({ busy [] with status := .halted } : State).status ≠ .running ∧
    (State.reset.takeFault .invalidVector).status ≠ .running := by decide

/-- For `FaultsWriteNothing` and `FaultKeepsAllButTheStatus`: a cycle that faults, on the CPU's turn. -/
theorem witness_FaultsWriteNothing : (busy [0x00]).Inv ∧ (busy [0x00]).status = .running ∧
    (∀ p key, (takeTurn (busy [0x00])).1 ≠ .cpuWithKey p key) ∧
    (∃ t, cycle (busy [0x00]) = .next t ∧ decide (t.status = .faulted .unrecognizedOpcode) = true) ∧
    ∃ t, step (busy [0x00]) = .next t ∧ decide (t.status = .faulted .unrecognizedOpcode) = true :=
  ⟨⟨by decide, by decide⟩, by decide, fun _ _ h => Turn.noConfusion h, of_goes (by decide), of_goes (by decide)⟩

/-- `/ R2 R0 KB` or `l 0xFFFF KB` at IP, KB = `0x41`, and a turn in which the key 0 is to land at `p`. -/
def keyFault (code : List Byte) (p : KeyPoint) : State :=
  { prep [(0x18, 0x41)] 0x0100 code with kbdReq := .enabled, schedule := [.cpuWithKey p 0] }

/-- A fault after a landed key at both points where one can land before it, and faults before the key lands. -/
theorem witness_FaultWithAKeyChangesKbAlone :
    (keyFault [0x2F, 4, 0, 0, 0, 0x18, 0] .betweenSources).Inv ∧
    (keyFault [0x2F, 4, 0, 0, 0, 0x18, 0] .betweenSources).schedule = .cpuWithKey .betweenSources 0 :: [] ∧
    fetch (keyFault [0x6C, 0xFF, 0xFF, 0x18, 0] .afterFetch) = .ok (.copy 0xFFFF 0x18) ∧
    (∃ t, step (keyFault [0x2F, 4, 0, 0, 0, 0x18, 0] .betweenSources) = .next t ∧
      (decide (t.status = .faulted .arithmeticFault) && t.kb == 0) = true) ∧
    (∃ t, step (keyFault [0x6C, 0xFF, 0xFF, 0x18, 0] .afterFetch) = .next t ∧
      (decide (t.status = .faulted .addressOutOfRange) && t.kb == 0) = true) ∧
    (∃ t, step (keyFault [0x2F, 0xFF, 0xFF, 0, 0, 0x18, 0] .betweenSources) = .next t ∧
      (decide (t.status = .faulted .addressOutOfRange) && t.kb == 0x41) = true) ∧
    (∃ t, step (keyFault [0x6C, 0xFF, 0xFF, 0x18, 0] .beforeResult) = .next t ∧
      (decide (t.status = .faulted .addressOutOfRange) && t.kb == 0x41) = true) :=
  ⟨⟨by decide, by decide⟩, by decide, by decide, of_goes (by decide), of_goes (by decide), of_goes (by decide), of_goes (by decide)⟩

/-- Each of the five checks of R175 failing, two at once where two can, and none failing; see F1 to F5. -/
theorem witness_FirstFailingCheckNamesTheFault : firstFault (prep [] 0xFFFF [0x01]) = some .unrecognizedOpcode ∧
    firstFault (prep [] 0xFFFA [0x3F]) = some .addressOutOfRange ∧
    firstFault (brim [0x69, 4]) = some .invalidVector ∧ firstFault (brim [0x69, 3]) = some .addressOutOfRange ∧
    firstFault (brim [0x2F, 0xFF, 0xFF, 0, 0, 2, 0]) = some .addressOutOfRange ∧
    firstFault (brim [0x2F, 4, 0, 0, 0, 2, 0]) = some .arithmeticFault ∧ firstFault (brim [0x68]) = none ∧
    (brim []).status = .running ∧ (brim []).pushAddr = 0xFFFF ∧ ({ brim [] with timerReq := .armed } : State).timerReq = .armed ∧
    ({ brim [] with kbdReq := .latched } : State).kbdReq = .latched := by decide

/-- A `raise` that faults, and a cycle that does. -/
theorem witness_a_raise_that_faults : raise (brim []) 3 = .error .addressOutOfRange ∧
    ∃ t, cycle (brim [0x00]) = .next t ∧ decide (t.status = .faulted .unrecognizedOpcode) = true :=
  ⟨by decide, of_goes (by decide)⟩

theorem witness_EveryInstructionKeepsItsFrame : (busy []).overlapKey = none ∧ ∃ t, exec (.push 1) (busy []) = .next t ∧ true = true :=
  ⟨by decide, of_goes (p := fun _ => true) (by decide)⟩

/-- `P R0` and `+` on the cells beside FL. -/
theorem witness_FlagsAreNeverASideEffect : (busy []).Inv ∧
    (∀ a ∈ storedWords (.add 0x000A 0x000E 0) (busy []) ++ loadedWords (.add 0x000A 0x000E 0) (busy []), apartReg a .fl) ∧
    (∀ a ∈ storedWords (.pop 0) (busy []) ++ loadedWords (.pop 0) (busy []), apartReg a .fl) ∧
    apartReg (busy []).pushAddr .fl ∧ ∃ t, raise (busy []) 3 = .ok t :=
  ⟨⟨by decide, by decide⟩,
    by simp only [storedWords, loadedWords, List.cons_append, List.nil_append, List.mem_cons, List.not_mem_nil, or_false, forall_eq_or_imp, forall_eq, apart_iff]
       decide,
    by simp only [storedWords, loadedWords, List.cons_append, List.nil_append, List.mem_cons, List.not_mem_nil, or_false, forall_eq_or_imp, forall_eq, apart_iff]
       decide,
    by simp only [apart_iff]; decide, of_succeeds (by decide)⟩

theorem witness_StepKeepsTheInvariant : (busy [0x68]).Inv ∧ ∃ t, step (busy [0x68]) = .next t ∧ true = true :=
  ⟨⟨by decide, by decide⟩, of_goes (p := fun _ => true) (by decide)⟩

theorem witness_BootMeetsTheInvariant : ∃ s, State.boot [0x48] [.timer] = .next s ∧ true = true :=
  of_goes (p := fun _ => true) (by decide)

/-- The Timer's three cases: IE set and clear, and a delivery that succeeds. -/
theorem witness_TimerTestsThenDelivers :
    (let s : State := { busy [] with schedule := [.timer] }
     s.status = .running ∧ s.schedule = [.timer] ∧ s.timerReq = .idle ∧ (s.reg .fl &&& 0x8000) ≠ 0) ∧
    ((prep [(0x0C, 0x7FFF)] 0 []).reg .fl &&& 0x8000) = 0 ∧
    (∃ t, raise { busy [] with timerReq := .armed, schedule := [] } 0 = .ok t) :=
  ⟨by decide, by decide, of_succeeds (by decide)⟩

/-- The Keyboard's cases, beside the IE ones above. -/
theorem witness_KeyboardTestsPollsThenDelivers :
    (let s : State := { busy [] with kbdReq := .enabled, schedule := [.keyboard (some 0xFF)] }
     s.mem.wf = true ∧ s.status = .running ∧ s.schedule = [.keyboard (some 0xFF)] ∧ s.kbdReq = .enabled) ∧
    (∃ t, raise { busy [] with kbdReq := .latched, schedule := [] } 1 = .ok t) :=
  ⟨by decide, of_succeeds (by decide)⟩

/-- Both agents with a request ready and a push address at the top of memory. -/
theorem witness_FaultingDeliveryKeepsTheRequest :
    (let s : State := { brim [] with timerReq := .armed, schedule := [.timer] }
     s.status = .running ∧ s.pushAddr = 0xFFFF ∧ s.schedule = .timer :: [] ∧ s.timerReq = .armed) ∧
    (let s : State := { brim [] with kbdReq := .latched, schedule := [.keyboard none] }
     s.status = .running ∧ s.pushAddr = 0xFFFF ∧ s.schedule = .keyboard none :: [] ∧ s.kbdReq = .latched) := by decide

/-- `= FL 0` at IP, and a ready request whose agent moves after it. -/
def waits (turn : Turn) : State :=
  { busy [0x3D, 0x0C, 0, 0, 0] with timerReq := .armed, kbdReq := .latched, schedule := [.cpu, turn] }

/-- One boundary between test and delivery, for each agent; IE is clear by then. -/
theorem witness_ArmedRequestOutlivesAnyWait : (waits .timer).Inv ∧ (waits (.keyboard none)).Inv ∧ stalenessAdmits [Turn.cpu].length ∧
    (waits .timer).schedule = [.cpu] ++ [.timer] ∧ Turn.timer ∉ [Turn.cpu] ∧
    (waits (.keyboard none)).schedule = [.cpu] ++ [.keyboard none] ∧ (∀ input, Turn.keyboard input ∉ [Turn.cpu]) ∧
    (∃ t, Host.Core.run core [Turn.cpu].length (waits .timer) = .next t ∧
      (decide (t.status = .running) && decide (t.pushAddr ≠ 0xFFFF) && !t.interruptEnable) = true) ∧
    ∃ t, Host.Core.run core [Turn.cpu].length (waits (.keyboard none)) = .next t ∧
      (decide (t.status = .running) && decide (t.pushAddr ≠ 0xFFFF) && !t.interruptEnable) = true :=
  ⟨⟨by decide, by decide⟩, ⟨by decide, by decide⟩, trivial, rfl, by decide, rfl, fun _ => by simp,
    of_goes (by decide), of_goes (by decide)⟩

/-- A step that arms the Timer, one that enables the Keyboard, and a Keyboard turn with IE clear. -/
theorem witness_OnlyTheIeTestArmsARequest :
    (busy []).timerReq = .idle ∧ (busy []).kbdReq = .idle ∧
    (∃ t, step { busy [] with schedule := [.timer] } = .next t ∧ decide (t.timerReq ≠ .idle) = true) ∧
    (∃ t, step { busy [] with schedule := [.keyboard none] } = .next t ∧ decide (t.kbdReq ≠ .idle) = true) ∧
    (brim []).kbdReq = .idle ∧ ((brim []).reg .fl &&& 0x8000) = 0 ∧
    (∃ t, step { brim [] with schedule := [.keyboard (some 1)] } = .next t ∧ true = true) :=
  ⟨by decide, by decide, of_goes (by decide), of_goes (by decide), by decide, by decide, of_goes (p := fun _ => true) (by decide)⟩

theorem witness_ArmedTimerOutlivesClearedIe :
    let s : State := { busy [] with timerReq := .armed }
    s.mem.wf = true ∧ s.timerReq = .armed ∧ s.pushAddr ≠ 0xFFFF ∧ apartReg s.pushAddr .ip := by
  simp only [apart_iff]
  decide

/-- Both orders of the two turns. -/
theorem witness_DeliveriesInARowNest :
    let s : State := { busy [] with timerReq := .armed, kbdReq := .latched, schedule := [.timer, .keyboard none] }
    s.mem.wf = true ∧ s.status = .running ∧ s.timerReq = .armed ∧ s.kbdReq = .latched ∧
    s.schedule = .timer :: .keyboard none :: [] ∧
    ({ s with schedule := [.keyboard none, .timer] } : State).schedule = .keyboard none :: .timer :: [] ∧
    (∀ a ∈ [s.pushAddr, s.pushAddr - 2], a ≠ 0xFFFF ∧
      ∀ r ∈ [Reg.sp, Reg.sb, Reg.fl, Reg.ip, Reg.int 0, Reg.int 1], apartReg a r) := by
  simp only [List.mem_cons, List.not_mem_nil, or_false, forall_eq_or_imp, forall_eq, apart_iff]
  decide

/-- The longest image that is loaded and the shortest that is refused. -/
theorem witness_BootCopiesTheImage :
    (List.replicate 65535 (0x48 : Byte)).length ≤ 65535 ∧ 65535 < (List.replicate 65536 (0x48 : Byte)).length := by
  rw [List.length_replicate, List.length_replicate]; omega

/-- The last pair of cells of a row. -/
theorem witness_StoreWritesTwoVideoCells : (busy []).mem.wf = true ∧ (79 : Fin 80).val = (78 : Fin 80).val + 1 ∧
    ((24 : Fin 25), (79 : Fin 80)) ≠ (24, 78) ∧ ((24 : Fin 25), (77 : Fin 80)) ≠ (24, 78) := by decide

end Sys2Proof.Machine.Tests
end

section
/-! Creating a machine with an image (spec/10_state.md R35): what `State.boot` answers, and what the created memory and
registers read as. -/

namespace Sys2Proof.Machine

/-- R35, R210: an image of at most IMAGE_MAX bytes is loaded over the reset state. -/
theorem State.boot_of_le {img : List Byte} (turns : List Turn) (h : img.length ≤ 65535) :
    State.boot img turns = .next { State.reset with mem := imageCells 0 img, schedule := turns } :=
  if_pos h

/-- D19, R211: a longer image is refused. -/
theorem State.boot_of_gt {img : List Byte} (turns : List Turn) (h : 65535 < img.length) :
    State.boot img turns = .refused .imageTooLong :=
  if_neg (Nat.not_le.mpr h)

theorem byte_of_mem_imageCells {s : State} {img : List Byte} (hs : s.mem = imageCells 0 img)
    (h : img.length ≤ memSize) (a : Word) : s.byte a = img.getD a.toNat 0 := by
  have hread : (imageCells 0 img).read (0 + a.toNat) = img.getD a.toNat blankByte := read_imageCells (by omega)
  rw [State.byte, hs, ← Nat.zero_add a.toNat, hread, Nat.zero_add, blankByte]

/-- The high byte of a register's cell stands one address up: no register cell is at the top of memory (R21). -/
theorem regAddr_succ_toNat (r : Reg) : (regAddr r + 1).toNat = (regAddr r).toNat + 1 := by
  obtain ⟨-, hle⟩ := regAddr_even r
  have hlt : (regAddr r).toNat + (1 : Word).toNat < 2 ^ 16 := Nat.lt_of_le_of_lt (Nat.add_le_add_right hle _) (by decide)
  exact BitVec.toNat_add_of_lt hlt

/-- R8, R20: a register as a number, from the two bytes of its cell. -/
theorem toNat_reg (s : State) (r : Reg) :
    (s.reg r).toNat = (s.byte (regAddr r)).toNat + 256 * (s.byte (regAddr r + 1)).toNat :=
  toNat_joinBytes _ _

/-- Settles O52: the created state is the reset state with the image as memory, so each byte, the last one and the two of
each register among them, is read off the image. -/
theorem bootCopiesTheImage : Obligations.BootCopiesTheImage := by
  intro img turns
  refine ⟨fun hlen => ⟨_, State.boot_of_le turns hlen, ?_⟩, State.boot_of_gt turns⟩
  have hsize : img.length ≤ memSize := hlen.trans (by decide)
  have hbyte := byte_of_mem_imageCells (img := img)
    (s := { State.reset with mem := imageCells 0 img, schedule := turns }) rfl hsize
  refine ⟨hbyte, ?last, rfl, rfl, rfl, rfl, fun r => ?reg⟩
  case last => rw [hbyte]; exact List.getD_eq_default _ _ hlen
  case reg => rw [toNat_reg, hbyte, hbyte, regAddr_succ_toNat]

end Sys2Proof.Machine
end

section
/-! Fetching near the top of memory (spec/20_memory.md R54): the decoder refuses an opcode's operands exactly when too few bytes
are given, and the fetch gives the bytes up to `0xFFFF`. -/

namespace Sys2Proof.Machine

/-- `read` needs `n` operand bytes: with fewer it reports opcode `o` as truncated, else it answers an instruction of opcode `o`. -/
def ReadsOperands (o : Opcode) (n : Nat) (read : List Byte → Decoded) : Prop :=
  ∀ bs, (bs.length < n → read bs = .error (.truncated o)) ∧
    (n ≤ bs.length → ∃ i rest, read bs = .ok (i, rest) ∧ instrOpcode i = o)

theorem readsOperands_noOperand {o : Opcode} {i : Instr} (hi : instrOpcode i = o) :
    ReadsOperands o 0 fun bs => .ok (i, bs) :=
  fun bs => ⟨fun h => absurd h (Nat.not_lt_zero _), fun _ => ⟨i, bs, rfl, hi⟩⟩

theorem readsOperands_oneByte {o : Opcode} {make : Byte → Instr} (hmake : ∀ n, instrOpcode (make n) = o) :
    ReadsOperands o 1 (oneByte o make)
  | _ :: rest => ⟨fun h => absurd h (by simp), fun _ => ⟨_, rest, rfl, hmake _⟩⟩
  | [] => ⟨fun _ => rfl, fun h => absurd h (by simp)⟩

theorem readsOperands_oneWord {o : Opcode} {make : Word → Instr} (hmake : ∀ a, instrOpcode (make a) = o) :
    ReadsOperands o 2 (oneWord o make)
  | _ :: _ :: rest => ⟨fun h => absurd h (by simp), fun _ => ⟨_, rest, rfl, hmake _⟩⟩
  | [] | [_] => ⟨fun _ => rfl, fun h => absurd h (by simp)⟩

theorem readsOperands_twoWords {o : Opcode} {make : Word → Word → Instr} (hmake : ∀ a b, instrOpcode (make a b) = o) :
    ReadsOperands o 4 (twoWords o make)
  | _ :: _ :: _ :: _ :: rest => ⟨fun h => absurd h (by simp), fun _ => ⟨_, rest, rfl, hmake _ _⟩⟩
  | [] | [_] | [_, _] | [_, _, _] => ⟨fun _ => rfl, fun h => absurd h (by simp)⟩

theorem readsOperands_threeWords {o : Opcode} {make : Word → Word → Word → Instr}
    (hmake : ∀ a b c, instrOpcode (make a b c) = o) : ReadsOperands o 6 (threeWords o make)
  | _ :: _ :: _ :: _ :: _ :: _ :: rest => ⟨fun h => absurd h (by simp), fun _ => ⟨_, rest, rfl, hmake _ _ _⟩⟩
  | [] | [_] | [_, _] | [_, _, _] | [_, _, _, _] | [_, _, _, _, _] => ⟨fun _ => rfl, fun h => absurd h (by simp)⟩

/-- R81, R87: the operand bytes of an opcode are those of its length, the opcode byte aside. -/
theorem readsOperands_decodeOperands (o : Opcode) : ReadsOperands o (opcodeLength o - 1) (decodeOperands o) := by
  cases o
  case brEq | add | sub | mul | div | mod | or | and | xor => exact readsOperands_threeWords fun _ _ _ => rfl
  case storeImm | copy | lnot => exact readsOperands_twoWords fun _ _ => rfl
  case push | pop => exact readsOperands_oneWord fun _ => rfl
  case int => exact readsOperands_oneByte fun _ => rfl
  case yield | halt => exact readsOperands_noOperand rfl

/-- R81: the shortest instruction is one byte and the longest seven. -/
theorem opcodeLength_bounds (o : Opcode) : 1 ≤ opcodeLength o ∧ opcodeLength o ≤ 7 := by
  cases o <;> decide

/-- The fetch gives seven bytes, or as many as stand between IP and the top of memory. -/
theorem length_fetchBytes (s : State) : (fetchBytes s).length = min 7 (65536 - (s.reg .ip).toNat) := by
  have hip := (s.reg .ip).isLt
  by_cases h : (s.reg .ip).toNat ≤ 0xFFF9
  · rw [fetchBytes_of_fits h, Nat.min_eq_left (by omega)]
    rfl
  · rw [fetchBytes_take (n := 65536 - (s.reg .ip).toNat) (by omega) (.inl (by omega)), List.length_map, List.length_range,
      Nat.min_eq_right (by omega)]

/-- R89, R162: a byte at IP that is no opcode is refused whatever follows it. -/
theorem fetch_of_no_opcode {s : State} (h : opcodeOfByte (s.byte (s.reg .ip)) = none) :
    fetch s = .error .unrecognizedOpcode := by
  obtain ⟨bs, hbs⟩ := fetchBytes_eq_cons s
  rw [fetch, hbs, decode_illegal h]
  rfl

section

variable {s : State} {o : Opcode} (h : opcodeOfByte (s.byte (s.reg .ip)) = some o)
include h

/-- With an opcode at IP the fetch reads its operands from the bytes after it that exist. -/
theorem exists_operandBytes : ∃ bs, decode (fetchBytes s) = decodeOperands o bs ∧
    bs.length + 1 = min 7 (65536 - (s.reg .ip).toNat) := by
  obtain ⟨bs, hbs⟩ := fetchBytes_eq_cons s
  exact ⟨bs, by rw [hbs, decode_cons h], by rw [← length_fetchBytes, hbs, List.length_cons]⟩

/-- R54: an instruction that runs past `0xFFFF` faults in the fetch. -/
theorem fetch_of_pastTop (hlen : 65536 < (s.reg .ip).toNat + opcodeLength o) :
    fetch s = .error .addressOutOfRange := by
  obtain ⟨bs, hdecode, hbs⟩ := exists_operandBytes h
  have hmax := opcodeLength_bounds o
  rw [fetch, hdecode, (readsOperands_decodeOperands o bs).1 (by omega)]
  rfl

/-- R54: an instruction whose last byte is at or below `0xFFFF` is fetched. -/
theorem fetch_of_fits (hlen : (s.reg .ip).toNat + opcodeLength o ≤ 65536) :
    ∃ i, fetch s = .ok i ∧ instrOpcode i = o := by
  obtain ⟨bs, hdecode, hbs⟩ := exists_operandBytes h
  have hmax := opcodeLength_bounds o
  obtain ⟨i, rest, hi, ho⟩ := (readsOperands_decodeOperands o bs).2 (by omega)
  exact ⟨i, by rw [fetch, hdecode, hi], ho⟩

end

/-- D5: the address after an instruction that ends exactly at `0xFFFF` is `0x0000`. -/
theorem nextIp_eq_zero {s : State} {len : Nat} (hlen : (s.reg .ip).toNat + len = 65536) : s.nextIp len = 0 := by
  apply BitVec.eq_of_toNat_eq
  rw [State.nextIp_eq, BitVec.toNat_add, BitVec.toNat_ofNat, Nat.add_mod_mod, hlen]
  rfl

/-- Settles O6: the decoder's demand for operand bytes against the bytes that stand between IP and the top of memory. -/
theorem instructionPastTheTopFaults : Obligations.InstructionPastTheTopFaults := by
  intro s
  refine ⟨fun o ho => ⟨fun hpast => ?past, fun hfits => ?fits, nextIp_eq_zero⟩, fun hnone => ?illegal⟩
  case past => exact cycle_of_fetch_error (fetch_of_pastTop ho (by omega))
  case fits => exact fetch_of_fits ho (by omega)
  case illegal => exact cycle_of_fetch_error (fetch_of_no_opcode hnone)

end Sys2Proof.Machine
end

section
/-! Words in memory (spec/20_memory.md R50, R53): which byte of a word stands where, and the word at the top of memory. -/

namespace Sys2Proof.Machine

/-- R50: the byte at `a` is bits 7..0 of the word at `a`. -/
theorem firstByte_word (s : State) (a : Word) : firstByte (s.word a) = s.byte a := firstByte_joinBytes _ _

/-- R50: the byte at `a + 1` is bits 15..8 of the word at `a`. -/
theorem secondByte_word (s : State) (a : Word) : secondByte (s.word a) = s.byte (a + 1) := secondByte_joinBytes _ _

/-- Settles O10: the byte rules of a word store, and the two halves of a word read. -/
theorem wordsAreLittleEndian : Obligations.WordsAreLittleEndian := by
  intro s a v hwf _
  refine ⟨byte_setWord_low hwf a v, byte_setWord_high hwf a v, word_setWord_same hwf a v, sameBytes_setWord s a v,
    firstByte_word s a, fun _ => ?highHalf, byte_setWord_low hwf (regAddr .fl) 0x8000,
    byte_setWord_high hwf (regAddr .fl) 0x8000⟩
  case highHalf => rw [← secondByte_eq, secondByte_word, BitVec.sub_add_cancel]

/-- A three-address instruction stores to its first operand and loads the other two (R83). -/
theorem dataWords_ternary {i : Instr} {f : Word → Word → Except FaultReason Word} {d s1 s2 : Word}
    (h : ternaryOp i = some (f, d, s1, s2)) (s : State) : storedWords i s = [d] ∧ loadedWords i s = [s1, s2] := by
  cases i <;> simp only [ternaryOp, Option.some.injEq, Prod.mk.injEq, reduceCtorEq] at h <;>
    (obtain ⟨-, rfl, rfl, rfl⟩ := h; exact ⟨rfl, rfl⟩)

/-- R53: an instruction that stores or loads a word at `0xFFFF` ends in the state before it, with the fault as its status. -/
theorem exec_of_word_at_top {i : Instr} {s : State}
    (htop : (0xFFFF : Word) ∈ storedWords i s ∨ (0xFFFF : Word) ∈ loadedWords i s)
    (hvector : ∀ n, i = .int n → n.toNat < 4) : exec i s = .next (s.takeFault .addressOutOfRange) := by
  cases ht : ternaryOp i with
  | some p =>
    obtain ⟨f, d, s1, s2⟩ := p
    obtain ⟨hstored, hloaded⟩ := dataWords_ternary ht s
    rw [hstored, hloaded] at htop
    rw [exec_ternary ht, ternaryShape_eq, if_pos (by simpa [eq_comm] using htop)]
  | none =>
    cases i <;> simp only [ternaryOp, reduceCtorEq] at ht <;>
      simp only [storedWords, loadedWords, List.mem_singleton, List.not_mem_nil, or_false, or_self] at htop
    case storeImm d v => rw [exec_storeImm, if_pos htop.symm]
    case copy d a => rw [exec_copy, if_pos (htop.symm.imp Eq.symm Eq.symm)]
    case lnot d a => rw [exec_lnot, if_pos (htop.symm.imp Eq.symm Eq.symm)]
    case int n => rw [exec_int, dif_pos (hvector n rfl), if_pos htop.symm]
    case push v => rw [exec_push, if_pos htop.symm]
    case pop d => rw [exec_pop, if_pos (htop.symm.imp Eq.symm Eq.symm)]

/-- Settles O11: each word access, the push of `raise` among them, tests its address before it writes. -/
theorem wordAccessAtTheTopFaults : Obligations.WordAccessAtTheTopFaults := by
  intro s
  refine ⟨?read, fun v => ?write, fun i htop hvector => ?instr, fun hpush v => ?raise⟩
  case read => rw [readWord_eq, if_pos rfl]
  case write => rw [writeWord_eq, if_pos rfl]
  case instr => exact ⟨_, exec_of_word_at_top htop hvector, rfl, rfl⟩
  case raise => rw [raise_eq, if_pos hpush]

end Sys2Proof.Machine
end

section
/-! Operand words (spec/30_encoding.md R82): the bytes the fetch gives an instruction that fits, and the operands the decoder
makes of them. -/

namespace Sys2Proof.Machine

/-- The byte `k` places above IP. -/
def byteFromIp (s : State) (k : Nat) : Byte := s.byte (s.reg .ip + BitVec.ofNat 16 k)

/-- The byte at offset 0 is the opcode byte. -/
theorem byteFromIp_zero (s : State) : byteFromIp s 0 = s.byte (s.reg .ip) :=
  congrArg s.byte (BitVec.add_zero _)

/-- The formula of R82 is the word put together from the two bytes, the lower address first. -/
theorem operandWord_eq_joinBytes (s : State) (k : Nat) :
    operandWord s k = joinBytes (byteFromIp s (1 + 2 * k)) (byteFromIp s (2 + 2 * k)) := by
  apply BitVec.eq_of_toNat_eq
  have hlow := (byteFromIp s (1 + 2 * k)).isLt
  have hhigh := (byteFromIp s (2 + 2 * k)).isLt
  rw [toNat_joinBytes]
  exact Nat.mod_eq_of_lt (by omega)

/-- The fetch begins with the bytes of any instruction that ends at or below `0xFFFF`. -/
theorem exists_fetchBytes_eq_append {s : State} {n : Nat} (hn : n ≤ 7) (hfits : (s.reg .ip).toNat + n ≤ 65536) :
    ∃ rest, fetchBytes s = (List.range n).map (byteFromIp s) ++ rest := by
  obtain ⟨m, hm⟩ : ∃ m, n + m = min 7 (65536 - (s.reg .ip).toNat) := ⟨_, Nat.add_sub_of_le (by omega)⟩
  have hfetch : fetchBytes s = (List.range (n + m)).map (byteFromIp s) := fetchBytes_take (by omega) (by omega)
  exact ⟨_, by rw [hfetch, List.range_add, List.map_append]⟩

/-- R80, R82: the operands that the decoder makes of the bytes `b 0`, `b 1`, … when `b 0` is the byte of opcode `o`. -/
theorem decode_withOperands {o : Opcode} {b : Nat → Byte} (h : opcodeOfByte (b 0) = some o) (rest : List Byte) :
    decode ((List.range (opcodeLength o)).map b ++ rest) =
      .ok (withOperands o (fun k => joinBytes (b (1 + 2 * k)) (b (2 + 2 * k))) (b 1), rest) := by
  cases o <;> exact decode_cons h _

/-- Settles O5: the fetched bytes begin with the whole instruction, and the decoder joins its operand words from them. -/
theorem operandWordsFollowTheOpcode : Obligations.OperandWordsFollowTheOpcode := by
  intro s o hopcode hfits
  obtain ⟨rest, hfetch⟩ := exists_fetchBytes_eq_append (opcodeLength_bounds o).2 hfits
  have hwords : operandWord s = fun k => joinBytes (byteFromIp s (1 + 2 * k)) (byteFromIp s (2 + 2 * k)) :=
    funext (operandWord_eq_joinBytes s)
  rw [← byteFromIp_zero] at hopcode
  rw [fetch, hfetch, decode_withOperands hopcode, hwords]
  rfl

end Sys2Proof.Machine
end

section
/-! The byte that is no opcode, and the opcode without an effect (spec/44_yield_halt.md R160, R162): a failed fetch ends the run in
either kind of CPU turn, and `h` is the advance of IP alone. -/

namespace Sys2Proof.Machine

/-- Every opcode's byte is in the list of R89. -/
theorem opcodeByte_mem_legalOpcodeBytes (o : Opcode) : opcodeByte o ∈ legalOpcodeBytes := by
  cases o <;> decide

/-- R89: a byte outside the list names no opcode. -/
theorem opcodeOfByte_of_not_legal {b : Byte} (h : b ∉ legalOpcodeBytes) : opcodeOfByte b = none :=
  opcodeOfByte_eq_none.mpr fun o hb => h (hb ▸ opcodeByte_mem_legalOpcodeBytes o)

/-- A fetch that fails ends a cycle with a key as it ends a plain one: no key lands before the fetch. -/
theorem cycleWithKey_takeFault {s : State} {r : FaultReason} (h : fetch s = .error r) (p : KeyPoint) (key : Byte) :
    cycleWithKey p key s = .next (s.takeFault r) := by
  by_cases hk : s.kbdReq = .enabled
  · exact cycleWithKey_of_fetch_error hk h
  · rw [cycleWithKey_of_not_enabled hk, cycle_of_fetch_error h]

/-- On a CPU turn of either kind, the step of a fetch that fails is the fault; the turn's state fetches as the one before it. -/
theorem step_of_fetch_error {s : State} {r : FaultReason} (hrun : s.status = .running)
    (hturn : (takeTurn s).1 = .cpu ∨ ∃ p key, (takeTurn s).1 = .cpuWithKey p key) (h : fetch s = .error r) :
    step s = .next ((takeTurn s).2.takeFault r) := by
  have hfetch : fetch (takeTurn s).2 = .error r := (fetch_of_mem (takeTurn_mem s)).trans h
  rw [step_of_running hrun]
  obtain hcpu | ⟨p, key, hkey⟩ := hturn
  · rw [hcpu]
    exact cycle_of_fetch_error hfetch
  · rw [hkey]
    exact cycleWithKey_takeFault hfetch p key

/-- R174: no step follows a fault. -/
theorem step_takeFault_ne_next (s : State) (r : FaultReason) (u : State) : step (s.takeFault r) ≠ .next u :=
  fun h => RunStatus.noConfusion (running_of_step h)

/-- Settles O7: a byte outside the list fails the fetch, and the step of a failed fetch is the fault, which leaves memory as it
was. -/
theorem unrecognizedOpcodeEndsTheRun : Obligations.UnrecognizedOpcodeEndsTheRun := by
  intro s hrun hturn hbyte
  have hfetch : fetch s = .error .unrecognizedOpcode := fetch_of_no_opcode (opcodeOfByte_of_not_legal hbyte)
  have hmem : ((takeTurn s).2.takeFault .unrecognizedOpcode).mem = s.mem := takeTurn_mem s
  exact ⟨_, step_of_fetch_error hrun hturn hfetch, rfl, hmem, reg_of_mem hmem .ip, rfl, by decide,
    step_takeFault_ne_next _ _⟩

/-- Settles O34: `h` is the advance of IP by its one byte, whose rules say the rest. -/
theorem yieldOnlyAdvances : Obligations.YieldOnlyAdvances := by
  refine ⟨decode_cons (o := .yield) (by decide) [], fun s hwf => ?_⟩
  have hip : (s.advance 1).reg .ip = s.nextIp 1 := reg_advance_ip hwf 1
  refine ⟨s.advance 1, exec_yield s, hip, fun htop => ?wraps, sameBytes_advance s 1, sameControl_advance s 1⟩
  case wraps => rw [hip, nextIp_eq_zero (by rw [htop]; rfl)]

end Sys2Proof.Machine
end

section
/-! No step follows the end of a run (spec/60_exceptions.md R174), and the turns of the two agents (R177, R178), one equation for
each of their steps. -/

namespace Sys2Proof.Machine

/-! ## No step of an ended run -/

/-- On any machine, a run of one step or more begins with a step. -/
theorem exists_step_of_run_succ {M : Host.Core} {n : Nat} {s t : M.State} (h : M.run (n + 1) s = .next t) :
    ∃ u, M.step s = .next u := by
  rw [Host.Core.run] at h
  split at h
  case h_1 u hstep => exact ⟨u, hstep⟩
  all_goals cases h

/-- Settles O37: a step, and so the first step of a run, needs a running state. -/
theorem endedRunsTakeNoStep : Obligations.EndedRunsTakeNoStep := by
  intro s hended
  have hstep : ∀ t, step s ≠ .next t := fun _ h => hended (running_of_step h)
  refine ⟨hstep, fun n t hrun => ?_⟩
  obtain ⟨u, hu⟩ := exists_step_of_run_succ (M := core) hrun
  exact hstep u hu

/-! ## The agents' turns -/

/-- With a turn on the schedule, a step of a running machine is that turn. -/
theorem step_of_schedule {s : State} {turn : Turn} {turns : List Turn} (hrun : s.status = .running)
    (h : s.schedule = turn :: turns) : step s = runTurn turn { s with schedule := turns } := by
  rw [step_of_running hrun, takeTurn, h]

/-- R177, R178: the IE test is the mask `0x8000` on FL. -/
theorem interruptEnable_iff (s : State) : s.interruptEnable = true ↔ (s.reg .fl &&& 0x8000) ≠ 0 := bne_iff_ne

@[simp] theorem timerTest_status (s : State) : (timerTest s).status = s.status := by
  rw [timerTest]; split <;> rfl

@[simp] theorem kbdTest_status (s : State) : (kbdTest s).status = s.status := by
  rw [kbdTest]; split <;> rfl

@[simp] theorem kbdPoll_status (input : Option Byte) (s : State) : (kbdPoll input s).status = s.status := by
  cases input <;> rfl

section

variable {s : State}

theorem timerTurn_of_idle (h : s.timerReq = .idle) : timerTurn s = .next (timerTest s) := by
  rw [timerTurn, h]

/-- `timer_test` with IE set (R177). -/
theorem timerTurn_of_idle_set (h : s.timerReq = .idle) (hie : (s.reg .fl &&& 0x8000) ≠ 0) :
    timerTurn s = .next { s with timerReq := .armed } := by
  rw [timerTurn_of_idle h, timerTest, if_pos ((interruptEnable_iff s).mpr hie)]

/-- `timer_test` with IE clear (R177). -/
theorem timerTurn_of_idle_clear (h : s.timerReq = .idle) (hie : (s.reg .fl &&& 0x8000) = 0) :
    timerTurn s = .next s := by
  rw [timerTurn_of_idle h, timerTest, if_neg (mt (interruptEnable_iff s).mp (not_not_intro hie))]

/-- `timer_deliver` (R177). -/
theorem timerTurn_of_raised {t : State} (h : s.timerReq = .armed) (hraise : raise s 0 = .ok t) :
    timerTurn s = .next { t with timerReq := .idle } := by
  rw [timerTurn, h]; simp only [timerDeliver, hraise]

theorem timerTurn_of_raise_error {r : FaultReason} (h : s.timerReq = .armed) (hraise : raise s 0 = .error r) :
    timerTurn s = .next (s.takeFault r) := by
  rw [timerTurn, h]; simp only [timerDeliver, hraise]

theorem keyboardTurn_of_idle (h : s.kbdReq = .idle) (input : Option Byte) :
    keyboardTurn input s = .next (kbdTest s) := by
  rw [keyboardTurn, h]

/-- `kbd_test` with IE set (R178). -/
theorem keyboardTurn_of_idle_set (h : s.kbdReq = .idle) (hie : (s.reg .fl &&& 0x8000) ≠ 0) (input : Option Byte) :
    keyboardTurn input s = .next { s with kbdReq := .enabled } := by
  rw [keyboardTurn_of_idle h, kbdTest, if_pos ((interruptEnable_iff s).mpr hie)]

/-- `kbd_test` with IE clear (R178). -/
theorem keyboardTurn_of_idle_clear (h : s.kbdReq = .idle) (hie : (s.reg .fl &&& 0x8000) = 0) (input : Option Byte) :
    keyboardTurn input s = .next s := by
  rw [keyboardTurn_of_idle h, kbdTest, if_neg (mt (interruptEnable_iff s).mp (not_not_intro hie))]

/-- `kbd_poll` (R178). -/
theorem keyboardTurn_of_enabled (h : s.kbdReq = .enabled) (input : Option Byte) :
    keyboardTurn input s = .next (kbdPoll input s) := by
  rw [keyboardTurn, h]

/-- `kbd_deliver` (R178). -/
theorem keyboardTurn_of_raised {t : State} (h : s.kbdReq = .latched) (hraise : raise s 1 = .ok t) (input : Option Byte) :
    keyboardTurn input s = .next { t with kbdReq := .idle } := by
  rw [keyboardTurn, h]; simp only [kbdDeliver, hraise]

theorem keyboardTurn_of_raise_error {r : FaultReason} (h : s.kbdReq = .latched) (hraise : raise s 1 = .error r)
    (input : Option Byte) : keyboardTurn input s = .next (s.takeFault r) := by
  rw [keyboardTurn, h]; simp only [kbdDeliver, hraise]

end

/-- The one fault of `raise` is the push's (R175). -/
theorem raise_error {s : State} {v : Fin 4} {r : FaultReason} (h : raise s v = .error r) : r = .addressOutOfRange := by
  rw [raise_eq] at h
  split at h <;> cases h
  rfl

/-- The entry into an interrupt does not touch the run status (R142). -/
theorem raise_status {s t : State} {v : Fin 4} (h : raise s v = .ok t) : t.status = s.status := by
  rw [raise_eq] at h
  split at h <;> cases h
  rfl

/-- Settles O46: the Timer's turn at each of its request states. -/
theorem timerTestsThenDelivers : Obligations.TimerTestsThenDelivers := by
  intro s turns hrun hturn
  rw [step_of_schedule hrun hturn]
  exact ⟨timerTurn_of_idle_set (s := { s with schedule := turns }),
    timerTurn_of_idle_clear (s := { s with schedule := turns }),
    fun harmed _ ht => timerTurn_of_raised (s := { s with schedule := turns }) harmed ht⟩

/-- Settles O47: the Keyboard's turn at each of its request states; the poll's store is the one byte store of KB. -/
theorem keyboardTestsPollsThenDelivers : Obligations.KeyboardTestsPollsThenDelivers := by
  intro s turns input hwf hrun hturn
  rw [step_of_schedule hrun hturn]
  refine ⟨fun hidle hie => keyboardTurn_of_idle_set (s := { s with schedule := turns }) hidle hie input,
    fun hidle hie => keyboardTurn_of_idle_clear (s := { s with schedule := turns }) hidle hie input,
    fun hpoll hnone => ?noByte, fun hpoll key hkey => ?byte,
    fun hlatched t ht => keyboardTurn_of_raised (s := { s with schedule := turns }) hlatched ht input⟩
  case noByte =>
    subst hnone
    exact keyboardTurn_of_enabled (s := { s with schedule := turns }) hpoll none
  case byte =>
    subst hkey
    exact ⟨_, keyboardTurn_of_enabled (s := { s with schedule := turns }) hpoll (some key),
      byte_setByte_same hwf kbAddr key, rfl, sameBytes_storeKey { s with schedule := turns } key, hrun, rfl, rfl, rfl⟩

end Sys2Proof.Machine
end

section
/-! Faults (spec/60_exceptions.md R172, R175): each instruction, and then the cycle, ends as the first check that fails names it;
so does an agent's turn, whose one check is that of the push; and a turn that ends in a fault leaves the state it began in. -/

namespace Sys2Proof.Machine

/-- How a transaction that began in the running state `s` ends, by the fault that its checks name: in that fault and nothing
else, or in a state whose run goes on or is halted. -/
def EndsAs (s : State) (named : Option FaultReason) (res : Result) : Prop :=
  match named with
  | some r => res = .next (s.takeFault r)
  | none => ∃ t, res = .next t ∧ (t.status = .running ∨ t.status = .halted)

theorem endsAs_some {s : State} {r : FaultReason} {res : Result} :
    EndsAs s (some r) res ↔ res = .next (s.takeFault r) := Iff.rfl

theorem endsAs_none {s : State} {res : Result} :
    EndsAs s none res ↔ ∃ t, res = .next t ∧ (t.status = .running ∨ t.status = .halted) := Iff.rfl

/-- R172: a transaction that ends in a fault leaves the state it began in, with the status of the fault. -/
theorem EndsAs.eq_takeFault {s t : State} {r : FaultReason} {named : Option FaultReason} {res : Result} (h : EndsAs s named res)
    (ht : res = .next t) (hr : t.status = .faulted r) : t = s.takeFault r := by
  subst ht
  cases named with
  | some e =>
    cases endsAs_some.mp h
    cases hr
    rfl
  | none =>
    obtain ⟨u, hu, hgoes⟩ := endsAs_none.mp h
    cases hu
    rw [hr] at hgoes
    obtain h | h := hgoes <;> cases h

/-! ## The checks of an instruction and of a cycle -/

/-- The fault that an operator answers, if any. -/
def faultOf : Except FaultReason Word → Option FaultReason
  | .ok _ => none
  | .error r => some r

/-- Check 4 of R175, as membership. -/
theorem addressFault_eq (i : Instr) (s : State) :
    addressFault i s = if 0xFFFF ∈ storedWords i s ++ loadedWords i s then some .addressOutOfRange else none := by
  simp only [addressFault, atTop, List.contains_iff_mem]

/-- Check 5 of R175 is the operator's own refusal of its divisor. -/
theorem executeFault_ternary {i : Instr} {f : Word → Word → Except FaultReason Word} {d s1 s2 : Word}
    (h : ternaryOp i = some (f, d, s1, s2)) (s : State) (a : Word) :
    executeFault i s = (addressFault i s).or (faultOf (f a ((s.advance 7).word s2))) := by
  have divisor_eq : ∀ {q : Word}, divisorFault s2 s =
      faultOf (if (s.advance 7).word s2 = 0 then .error .arithmeticFault else .ok q) := by
    intro q; rw [divisorFault]; split <;> rfl
  cases i <;> simp only [ternaryOp, Option.some.injEq, Prod.mk.injEq, reduceCtorEq] at h <;> obtain ⟨rfl, rfl, rfl, rfl⟩ := h
  case div => rw [executeFault, divOp_eq, divisor_eq]
  case mod => rw [executeFault, modOp_eq, divisor_eq]
  all_goals exact (Option.or_none).symm

section

variable {s : State} (hrun : s.status = .running)
include hrun

/-- An instruction whose one fault is that of a word at the top of memory. -/
theorem endsAs_addressFault {i : Instr} {c : Prop} [Decidable c] {u : State}
    (hexec : exec i s = .next (if c then s.takeFault .addressOutOfRange else u))
    (hc : c ↔ 0xFFFF ∈ storedWords i s ++ loadedWords i s) (hu : u.status = s.status) :
    EndsAs s (addressFault i s) (exec i s) := by
  rw [addressFault_eq, hexec]
  by_cases h : c
  · rw [if_pos h, if_pos (hc.mp h)]; rfl
  · rw [if_neg h, if_neg (mt hc.mpr h)]; exact ⟨u, rfl, .inl (hu.trans hrun)⟩

/-- The three-address shape: the addresses first, then the operator. -/
theorem endsAs_ternary (hkey : s.overlapKey = none) {i : Instr} {f : Word → Word → Except FaultReason Word} {d s1 s2 : Word}
    (h : ternaryOp i = some (f, d, s1, s2)) : EndsAs s (executeFault i s) (exec i s) := by
  obtain ⟨hstored, hloaded⟩ := dataWords_ternary h s
  have htop : (0xFFFF ∈ storedWords i s ++ loadedWords i s) ↔ d = 0xFFFF ∨ s1 = 0xFFFF ∨ s2 = 0xFFFF := by
    simp [hstored, hloaded, eq_comm]
  rw [executeFault_ternary h s ((s.advance 7).word s1), addressFault_eq, exec_ternary_of_none hkey h]
  simp only [htop]
  split
  · rfl
  · cases hf : f ((s.advance 7).word s1) ((s.advance 7).word s2) with
    | ok w => exact ⟨_, rfl, .inl hrun⟩
    | error e => exact endsAs_some.mpr rfl

/-- R143, R175: `i` checks its vector, then the push address. -/
theorem endsAs_int (n : Byte) : EndsAs s (executeFault (.int n) s) (exec (.int n) s) := by
  rw [executeFault]
  have hexec := exec_int n s
  by_cases hn : n.toNat < 4
  · rw [dif_pos hn] at hexec
    rw [if_neg (by omega)]
    exact endsAs_addressFault hrun hexec (by simp [storedWords, loadedWords, eq_comm]) rfl
  · rw [dif_neg hn] at hexec
    rw [if_pos (by omega)]
    exact hexec

/-- R175, checks 3 to 5: every instruction ends as they name it. -/
theorem exec_endsAs (hkey : s.overlapKey = none) (i : Instr) : EndsAs s (executeFault i s) (exec i s) := by
  cases ht : ternaryOp i with
  | some p => exact endsAs_ternary hrun hkey ht
  | none =>
    cases i <;> simp only [ternaryOp, reduceCtorEq] at ht
    case brEq a b d => exact ⟨_, exec_brEq a b d s, .inl hrun⟩
    case storeImm d v =>
      exact endsAs_addressFault hrun (exec_storeImm d v s) (by simp [storedWords, loadedWords, eq_comm]) rfl
    case copy d a =>
      exact endsAs_addressFault hrun (exec_copy d a s) (by simp [storedWords, loadedWords, eq_comm, or_comm]) (by simp)
    case lnot d a =>
      exact endsAs_addressFault hrun (exec_lnot d a s) (by simp [storedWords, loadedWords, eq_comm, or_comm]) (by simp)
    case int n => exact endsAs_int hrun n
    case push v => exact endsAs_addressFault hrun (exec_push v s) (by simp [storedWords, loadedWords, eq_comm]) rfl
    case pop d =>
      exact endsAs_addressFault hrun (exec_pop d s) (by simp [storedWords, loadedWords, eq_comm, or_comm]) (by simp)
    case yield => exact ⟨_, exec_yield s, .inl hrun⟩
    case halt => exact ⟨_, exec_halt s, .inr rfl⟩

/-- R175: a cycle ends as its five checks name it. -/
theorem cycle_endsAs (hkey : s.overlapKey = none) : EndsAs s (firstFault s) (cycle s) := by
  cases hop : opcodeOfByte (s.byte (s.reg .ip)) with
  | none =>
    simp only [firstFault, hop]
    exact cycle_of_fetch_error (fetch_of_no_opcode hop)
  | some o =>
    simp only [firstFault, hop]
    have hmin := (opcodeLength_bounds o).1
    split
    · exact cycle_of_fetch_error (fetch_of_pastTop hop (by omega))
    · obtain ⟨i, hfetch, -⟩ := fetch_of_fits hop (by omega)
      rw [cycle_of_fetch hfetch]
      simp only [hfetch]
      exact exec_endsAs hrun hkey i

/-! ## The turns of the agents -/

/-- R177: the Timer's one fault is that of its delivery. -/
theorem timerTurn_endsAs : ∃ named, EndsAs s named (timerTurn s) := by
  cases hreq : s.timerReq with
  | idle => exact ⟨none, _, timerTurn_of_idle hreq, .inl ((timerTest_status s).trans hrun)⟩
  | armed =>
    cases hraise : raise s 0 with
    | ok u => exact ⟨none, _, timerTurn_of_raised hreq hraise, .inl ((raise_status hraise).trans hrun)⟩
    | error r => exact ⟨some r, timerTurn_of_raise_error hreq hraise⟩

/-- R178: the Keyboard's one fault is that of its delivery. -/
theorem keyboardTurn_endsAs (input : Option Byte) : ∃ named, EndsAs s named (keyboardTurn input s) := by
  cases hreq : s.kbdReq with
  | idle => exact ⟨none, _, keyboardTurn_of_idle hreq input, .inl ((kbdTest_status s).trans hrun)⟩
  | enabled => exact ⟨none, _, keyboardTurn_of_enabled hreq input, .inl ((kbdPoll_status input s).trans hrun)⟩
  | latched =>
    cases hraise : raise s 1 with
    | ok u => exact ⟨none, _, keyboardTurn_of_raised hreq hraise input, .inl ((raise_status hraise).trans hrun)⟩
    | error r => exact ⟨some r, keyboardTurn_of_raise_error hreq hraise input⟩

/-- R172: every turn ends in one of these two ways, but the model's own, in which a key store overlaps the cycle. -/
theorem runTurn_endsAs {turn : Turn} (hkey : s.overlapKey = none) (hturn : ∀ p key, turn ≠ .cpuWithKey p key) :
    ∃ named, EndsAs s named (runTurn turn s) := by
  cases turn with
  | cpu => exact ⟨_, cycle_endsAs hrun hkey⟩
  | cpuWithKey p key => exact absurd rfl (hturn p key)
  | timer => exact timerTurn_endsAs hrun
  | keyboard input => exact keyboardTurn_endsAs hrun input

/-- A step of a running machine is a transaction that began with its turn taken off the schedule. -/
theorem step_endsAs (hkey : s.overlapKey = none) (hturn : ∀ p key, (takeTurn s).1 ≠ .cpuWithKey p key) :
    ∃ named, EndsAs (takeTurn s).2 named (step s) := by
  rw [step_of_running hrun]
  exact runTurn_endsAs ((takeTurn_status s).trans hrun) ((takeTurn_overlapKey s).trans hkey) hturn

end

/-- Taking a fault writes nothing, IP included, and ends the run. -/
theorem takeFault_writes_nothing {s u : State} (hmem : u.mem = s.mem) (r : FaultReason) :
    (u.takeFault r).mem = s.mem ∧ (u.takeFault r).reg .ip = s.reg .ip ∧ ∀ v, step (u.takeFault r) ≠ .next v :=
  ⟨hmem, reg_of_mem hmem .ip, step_takeFault_ne_next u r⟩

/-- Settles O39: a faulting cycle or step leaves the state that its transaction began in, but for the status. -/
theorem faultsWriteNothing : Obligations.FaultsWriteNothing := by
  rintro s t r ⟨-, hkey⟩ hrun hr
  refine ⟨fun hcycle => ?cycle, fun hturn hstep => ?step⟩
  case cycle =>
    rw [(cycle_endsAs hrun hkey).eq_takeFault hcycle hr]
    exact takeFault_writes_nothing rfl r
  case step =>
    obtain ⟨named, hends⟩ := step_endsAs hrun hkey hturn
    rw [hends.eq_takeFault hstep hr]
    exact takeFault_writes_nothing (takeTurn_mem s) r

/-- Settles O40: the cycle ends as its checks name it, and an agent's one fault is that of its push. -/
theorem firstFailingCheckNamesTheFault : Obligations.FirstFailingCheckNamesTheFault := by
  rintro s ⟨-, hkey⟩ hrun
  have hcycle : EndsAs s (firstFault s) (cycle s) := cycle_endsAs hrun hkey
  have hraise : s.pushAddr = 0xFFFF → ∀ v, raise s v = .error .addressOutOfRange :=
    fun htop v => by rw [raise_eq, if_pos htop]
  refine ⟨fun r hr => ?faults, fun hnone => ?completes, fun v r => raise_error,
    fun htop harmed => ⟨_, timerTurn_of_raise_error harmed (hraise htop 0), rfl, rfl⟩,
    fun htop hlatched input => ⟨_, keyboardTurn_of_raise_error hlatched (hraise htop 1) input, rfl, rfl⟩,
    fun t r ht hr => ?ended⟩
  case faults => rwa [hr, endsAs_some] at hcycle
  case completes => rwa [hnone, endsAs_none] at hcycle
  case ended =>
    rw [hcycle.eq_takeFault ht hr]
    exact step_takeFault_ne_next s r

end Sys2Proof.Machine
end

section
/-! Encoding and decoding (spec/30_encoding.md sections 1, 3 and 5): an instruction's operand bytes are what its format reads, in
both directions, and the opcode table names 17 bytes and no other. -/

namespace Sys2Proof.Machine

/-! ## From an instruction to its bytes and back -/

/-- R80 to R84: the operands are read back from their bytes, and the bytes after them are left over. -/
theorem decodeOperands_encodeOperands (i : Instr) (rest : List Byte) :
    decodeOperands (instrOpcode i) (encodeOperands i ++ rest) = .ok (i, rest) := by
  cases i
  case brEq | add | sub | mul | div | mod | or | and | xor =>
    simp [instrOpcode, encodeOperands, decodeOperands, threeWords]
  case storeImm | copy | lnot => simp [instrOpcode, encodeOperands, decodeOperands, twoWords]
  case push | pop => simp [instrOpcode, encodeOperands, decodeOperands, oneWord]
  case int | yield | halt => rfl

/-- Settles O1: the opcode byte names the opcode, and the operands are read back. -/
theorem decodeOfEncodeIsTheInstruction : Obligations.DecodeOfEncodeIsTheInstruction := by
  intro i rest
  rw [encode, List.cons_append, decode_cons (opcodeOfByte_opcodeByte _), decodeOperands_encodeOperands]

/-- The two bytes that make a word are the word's bytes. -/
theorem wordBytes_joinBytes (x y : Byte) : wordBytes (joinBytes x y) = [x, y] := by simp

theorem oneByte_ok {o : Opcode} {make : Byte → Instr} {i : Instr} {rest : List Byte} :
    ∀ {bs}, oneByte o make bs = .ok (i, rest) → ∃ n, i = make n ∧ bs = [n] ++ rest
  | n :: _, h => by cases h; exact ⟨n, rfl, rfl⟩

theorem oneWord_ok {o : Opcode} {make : Word → Instr} {i : Instr} {rest : List Byte} :
    ∀ {bs}, oneWord o make bs = .ok (i, rest) → ∃ a, i = make a ∧ bs = wordBytes a ++ rest
  | a :: a' :: _, h => by cases h; exact ⟨_, rfl, by rw [wordBytes_joinBytes]; rfl⟩

theorem twoWords_ok {o : Opcode} {make : Word → Word → Instr} {i : Instr} {rest : List Byte} :
    ∀ {bs}, twoWords o make bs = .ok (i, rest) → ∃ a b, i = make a b ∧ bs = wordBytes a ++ wordBytes b ++ rest
  | a :: a' :: b :: b' :: _, h => by cases h; exact ⟨_, _, rfl, by simp only [wordBytes_joinBytes]; rfl⟩

theorem threeWords_ok {o : Opcode} {make : Word → Word → Word → Instr} {i : Instr} {rest : List Byte} :
    ∀ {bs}, threeWords o make bs = .ok (i, rest) →
      ∃ a b c, i = make a b c ∧ bs = wordBytes a ++ wordBytes b ++ wordBytes c ++ rest
  | a :: a' :: b :: b' :: c :: c' :: _, h => by cases h; exact ⟨_, _, _, rfl, by simp only [wordBytes_joinBytes]; rfl⟩

/-- Operands that are read make an instruction of that opcode, and the bytes read are its operand bytes: no bit is ignored. -/
theorem decodeOperands_ok {o : Opcode} {bs rest : List Byte} {i : Instr} (h : decodeOperands o bs = .ok (i, rest)) :
    instrOpcode i = o ∧ bs = encodeOperands i ++ rest := by
  cases o
  case brEq | add | sub | mul | div | mod | or | and | xor => obtain ⟨a, b, c, rfl, rfl⟩ := threeWords_ok h; exact ⟨rfl, rfl⟩
  case storeImm | copy | lnot => obtain ⟨a, b, rfl, rfl⟩ := twoWords_ok h; exact ⟨rfl, rfl⟩
  case push | pop => obtain ⟨a, rfl, rfl⟩ := oneWord_ok h; exact ⟨rfl, rfl⟩
  case int => obtain ⟨n, rfl, rfl⟩ := oneByte_ok h; exact ⟨rfl, rfl⟩
  case yield | halt => cases h; exact ⟨rfl, rfl⟩

/-- Settles O2: the first byte is the byte of the opcode it names, and the operand bytes are those of the instruction read. -/
theorem decodedBytesAreTheEncoding : Obligations.DecodedBytesAreTheEncoding := by
  intro bs rest i h
  cases bs with
  | nil => cases h
  | cons b bs =>
    cases hb : opcodeOfByte b with
    | none => rw [decode_illegal hb] at h; cases h
    | some o =>
      rw [decode_cons hb] at h
      obtain ⟨rfl, rfl⟩ := decodeOperands_ok h
      rw [opcodeOfByte_eq_some.mp hb, encode, List.cons_append]

/-! ## The opcode table -/

/-- Settles O3: each list is the encoding of the instruction, with nothing after it. -/
theorem writtenOutWordsDecode : Obligations.WrittenOutWordsDecode :=
  ⟨decodeOfEncodeIsTheInstruction (.brEq 3 0 0x0050) [], decodeOfEncodeIsTheInstruction (.copy 0x0035 2) [],
    decodeOfEncodeIsTheInstruction (.sub 2 2 4) [], decodeOfEncodeIsTheInstruction (.int 2) [],
    decodeOfEncodeIsTheInstruction (.pop 0x000E) [], decodeOfEncodeIsTheInstruction .halt []⟩

/-- R89: the list holds no byte but the opcodes'. -/
theorem opcodeOfByte_of_legal : ∀ b ∈ legalOpcodeBytes, (opcodeOfByte b).isSome := by decide

/-- R89: the bytes that name an opcode are those of the list. -/
theorem opcodeOfByte_isSome_iff (b : Byte) : (∃ o, opcodeOfByte b = some o) ↔ b ∈ legalOpcodeBytes := by
  constructor
  · rintro ⟨o, ho⟩
    rw [opcodeOfByte_eq_some.mp ho]
    exact opcodeByte_mem_legalOpcodeBytes o
  · exact fun h => Option.isSome_iff_exists.mp (opcodeOfByte_of_legal b h)

/-- How many of the `len` bytes from `start` up name no opcode. -/
def illegalCount (start len : Nat) : Nat :=
  ((List.range' start len).filter fun n => (opcodeOfByte (BitVec.ofNat 8 n)).isNone).length

theorem illegalCount_add (start m n : Nat) :
    illegalCount start (m + n) = illegalCount start m + illegalCount (start + m) n := by
  simp [illegalCount, ← List.range'_append_1]

/-- R89: 239 of the 256 bytes name no opcode, counted a quarter at a time. -/
theorem illegalCount_all : illegalCount 0 256 = 239 :=
  calc illegalCount 0 (64 + 64 + 64 + 64)
      = illegalCount 0 64 + illegalCount 64 64 + illegalCount 128 64 + illegalCount 192 64 := by
        rw [illegalCount_add, illegalCount_add, illegalCount_add]
    _ = 58 + 53 + 64 + 64 := by
        rw [show illegalCount 0 64 = 58 by decide, show illegalCount 64 64 = 53 by decide,
          show illegalCount 128 64 = 64 by decide, show illegalCount 192 64 = 64 by decide]

/-- Settles O4: the list of R89 against the table; the count is over the 256 bytes. -/
theorem illegalOpcodeBytesAreTheOthers : Obligations.IllegalOpcodeBytesAreTheOthers := by
  refine ⟨opcodeOfByte_isSome_iff, fun b hb bs => ?refused, ?count⟩
  case refused => exact decode_illegal (opcodeOfByte_of_not_legal hb) bs
  case count => rw [List.range_eq_range']; exact illegalCount_all

end Sys2Proof.Machine
end

section
/-! What an instruction can do, said once: it ends in a fault, or in word stores at the addresses it may write and the landing of a
pending key. The frame of every instruction (spec/20_memory.md section 11) is read off this. -/

namespace Sys2Proof.Machine

/-! ## Word stores and landed keys -/

/-- `t` is reached from `s` by word stores at addresses of `ws` and by passing points at which a pending key lands. -/
inductive Stores (ws : List Word) (s : State) : State → Prop where
  | refl : Stores ws s s
  | setWord {t : State} {a : Word} (h : Stores ws s t) (ha : a ∈ ws) (v : Word) : Stores ws s (t.setWord a v)
  | landKey {t : State} (h : Stores ws s t) (p : KeyPoint) : Stores ws s (t.landKey p)

namespace Stores

variable {ws : List Word} {s t : State}

theorem setReg {r : Reg} (h : Stores ws s t) (hr : regAddr r ∈ ws) (v : Word) : Stores ws s (t.setReg r v) :=
  h.setWord hr v

theorem advance (hip : regAddr .ip ∈ ws) (len : Nat) : Stores ws s (s.advance len) := refl.setReg hip _

theorem wf (h : Stores ws s t) (hs : s.mem.wf = true) : t.mem.wf = true := by
  induction h with
  | refl => exact hs
  | setWord _ _ v ih => exact wf_setWord ih _ v
  | landKey _ p ih => exact wf_landKey ih p

theorem status (h : Stores ws s t) : t.status = s.status := by
  induction h with
  | refl => rfl
  | setWord _ _ _ ih => exact ih
  | landKey _ p ih => rw [State.landKey_status, ih]

theorem timerReq (h : Stores ws s t) : t.timerReq = s.timerReq := by
  induction h with
  | refl => rfl
  | setWord _ _ _ ih => exact ih
  | landKey _ p ih => rw [State.landKey_timerReq, ih]

theorem schedule (h : Stores ws s t) : t.schedule = s.schedule := by
  induction h with
  | refl => rfl
  | setWord _ _ _ ih => exact ih
  | landKey _ p ih => rw [State.landKey_schedule, ih]

/-- A key lands only while the Keyboard polls, so any other request state stays. -/
theorem kbdReq (h : Stores ws s t) (hk : s.kbdReq ≠ .enabled) : t.kbdReq = s.kbdReq := by
  induction h with
  | refl => rfl
  | setWord _ _ _ ih => exact ih
  | @landKey u _ p ih =>
    obtain e | ⟨_, _, henabled, _⟩ := u.landKey_cases p
    · rw [e, ih]
    · exact absurd (ih ▸ henabled) hk

/-- With no key pending, what is left are the word stores. -/
theorem of_none (h : Stores ws s t) (hk : s.overlapKey = none) :
    t.overlapKey = none ∧ t.kbdReq = s.kbdReq ∧ SameBytesExcept (ws.flatMap cells) s t := by
  induction h with
  | refl => exact ⟨hk, rfl, SameBytesExcept.refl _ _⟩
  | setWord _ ha v ih =>
    obtain ⟨hkey, hkbd, hbytes⟩ := ih
    refine ⟨hkey, hkbd, hbytes.trans ((sameBytes_setWord _ _ v).mono fun x hx => ?_)⟩
    exact List.mem_flatMap.mpr ⟨_, ha, hx⟩
  | landKey _ p ih => rwa [State.landKey_of_none ih.1]

/-- With no key pending and no address to store at, nothing changes. -/
theorem eq_of_none (h : Stores [] s t) (hk : s.overlapKey = none) : t = s := by
  induction h with
  | refl => rfl
  | setWord _ ha => cases ha
  | landKey _ p ih => subst ih; exact State.landKey_of_none hk

end Stores

/-! ## What an instruction can do -/

/-- The addresses of the words an instruction may write: those it stores to, IP, and SP if it uses the stack. -/
def writtenWords (i : Instr) (s : State) : List Word :=
  storedWords i s ++ regAddr .ip :: (if usesStack i then [regAddr .sp] else [])

theorem ip_mem_writtenWords (i : Instr) (s : State) : regAddr .ip ∈ writtenWords i s := by simp [writtenWords]

theorem sp_mem_writtenWords {i : Instr} (h : usesStack i = true) (s : State) : regAddr .sp ∈ writtenWords i s := by
  simp [writtenWords, h]

theorem stored_mem_writtenWords {i : Instr} {s : State} {a : Word} (h : a ∈ storedWords i s) : a ∈ writtenWords i s :=
  List.mem_append_left _ h

/-- The bytes of those words are the bytes that `writtenCells` lists. -/
theorem flatMap_cells_writtenWords (i : Instr) (s : State) : (writtenWords i s).flatMap cells = writtenCells i s := by
  unfold writtenWords writtenCells regCells
  cases usesStack i <;> simp

/-- Everything `raise` writes: SP, the stack word and IP (R142). -/
theorem raise_stores {s t : State} {v : Fin 4} {ws : List Word} (h : raise s v = .ok t) (hsp : regAddr .sp ∈ ws)
    (hpush : s.pushAddr ∈ ws) (hip : regAddr .ip ∈ ws) : Stores ws s t := by
  rw [raise_eq] at h
  split at h <;> cases h
  exact ((Stores.refl.setReg hsp _).setWord hpush _).setReg hip _

/-- How an instruction can end: in a fault, with at most a key landed; in its stores; or in the stores of `H`, halted. -/
def EndsInStores (i : Instr) (s t : State) : Prop :=
  (∃ r u, Stores [] s u ∧ t = u.takeFault r) ∨ Stores (writtenWords i s) s t ∨
    (i = .halt ∧ ∃ u, Stores (writtenWords i s) s u ∧ t = { u with status := .halted })

/-- An instruction that only checks addresses: the fault leaves the state before it. -/
theorem endsInStores_ite {i : Instr} {s t u : State} {r : FaultReason} {c : Prop} [Decidable c]
    (h : (Host.Outcome.next (if c then s.takeFault r else u) : Result) = .next t) (hu : Stores (writtenWords i s) s u) :
    EndsInStores i s t := by
  cases h
  split
  · exact .inl ⟨r, s, .refl, rfl⟩
  · exact .inr (.inl hu)

/-- The three-address shape: the sources, at most two landings, and the one store. -/
theorem endsInStores_ternary {i : Instr} {f : Word → Word → Except FaultReason Word} {d s1 s2 : Word} {s t : State}
    (hi : ternaryOp i = some (f, d, s1, s2)) (h : exec i s = .next t) : EndsInStores i s t := by
  rw [exec_ternary hi, ternaryShape_eq] at h
  split at h
  · cases h; exact .inl ⟨_, s, .refl, rfl⟩
  · split at h <;> cases h
    · have hd : d ∈ storedWords i s := by simp [(dataWords_ternary hi s).1]
      exact .inr (.inl ((((Stores.advance (ip_mem_writtenWords i s) 7).landKey _).landKey _).setWord
        (stored_mem_writtenWords hd) _))
    · exact .inl ⟨_, _, Stores.refl.landKey _, rfl⟩

/-- What each of the 17 instructions can do. -/
theorem exec_endsInStores {i : Instr} {s t : State} (h : exec i s = .next t) : EndsInStores i s t := by
  have advance := fun len => Stores.advance (s := s) (ip_mem_writtenWords i s) len
  cases hi : ternaryOp i with
  | some p => exact endsInStores_ternary hi h
  | none =>
    cases i <;> simp only [ternaryOp, reduceCtorEq] at hi
    case brEq a b d =>
      cases h
      exact .inr (.inl (Stores.refl.setReg (ip_mem_writtenWords _ s) _))
    case storeImm d v =>
      rw [exec_storeImm] at h
      exact endsInStores_ite h ((advance 5).setWord (stored_mem_writtenWords (by simp [storedWords])) v)
    case copy d a =>
      rw [exec_copy] at h
      exact endsInStores_ite h (((advance 5).landKey _).setWord (stored_mem_writtenWords (by simp [storedWords])) _)
    case lnot d a =>
      rw [exec_lnot] at h
      exact endsInStores_ite h (((advance 5).landKey _).setWord (stored_mem_writtenWords (by simp [storedWords])) _)
    case int n =>
      rw [exec_int] at h
      split at h
      · exact endsInStores_ite h ((((advance 2).setReg (sp_mem_writtenWords rfl s) _).setWord
          (stored_mem_writtenWords (by simp [storedWords])) _).setReg (ip_mem_writtenWords _ s) _)
      · cases h; exact .inl ⟨_, s, .refl, rfl⟩
    case push v =>
      rw [exec_push] at h
      exact endsInStores_ite h (((advance 3).setReg (sp_mem_writtenWords rfl s) _).setWord
        (stored_mem_writtenWords (by simp [storedWords])) v)
    case pop d =>
      rw [exec_pop] at h
      exact endsInStores_ite h ((((advance 3).setReg (sp_mem_writtenWords rfl s) _).landKey _).setWord
        (stored_mem_writtenWords (by simp [storedWords])) _)
    case yield => cases h; exact .inr (.inl (advance 1))
    case halt => cases h; exact .inr (.inr ⟨rfl, _, advance 1, rfl⟩)

section

variable {i : Instr} {s t : State} (h : exec i s = .next t)
include h

theorem exec_wf (hs : s.mem.wf = true) : t.mem.wf = true := by
  obtain ⟨r, u, hu, rfl⟩ | hu | ⟨_, u, hu, rfl⟩ := exec_endsInStores h <;> exact hu.wf hs

theorem exec_timerReq : t.timerReq = s.timerReq := by
  obtain ⟨r, u, hu, rfl⟩ | hu | ⟨_, u, hu, rfl⟩ := exec_endsInStores h <;> exact hu.timerReq

theorem exec_schedule : t.schedule = s.schedule := by
  obtain ⟨r, u, hu, rfl⟩ | hu | ⟨_, u, hu, rfl⟩ := exec_endsInStores h <;> exact hu.schedule

theorem exec_kbdReq (hk : s.kbdReq ≠ .enabled) : t.kbdReq = s.kbdReq := by
  obtain ⟨r, u, hu, rfl⟩ | hu | ⟨_, u, hu, rfl⟩ := exec_endsInStores h <;> exact hu.kbdReq hk

/-- R32: the status after an instruction is the one before, or Halted after `H`, or a fault. -/
theorem exec_status : t.status = s.status ∨ (i = .halt ∧ t.status = .halted) ∨ ∃ r, t.status = .faulted r := by
  obtain ⟨r, u, hu, rfl⟩ | hu | ⟨hi, u, hu, rfl⟩ := exec_endsInStores h
  · exact .inr (.inr ⟨r, rfl⟩)
  · exact .inl hu.status
  · exact .inr (.inl ⟨hi, rfl⟩)

theorem exec_overlapKey (hk : s.overlapKey = none) : t.overlapKey = none := by
  obtain ⟨r, u, hu, rfl⟩ | hu | ⟨_, u, hu, rfl⟩ := exec_endsInStores h <;> exact (hu.of_none hk).1

end

/-- Settles O41: what each kind of ending leaves unchanged while no key is pending. -/
theorem everyInstructionKeepsItsFrame : Obligations.EveryInstructionKeepsItsFrame := by
  intro i s t hk h
  have timer := exec_timerReq h
  have turns := exec_schedule h
  rw [← flatMap_cells_writtenWords]
  obtain ⟨r, u, hu, rfl⟩ | hu | ⟨hi, u, hu, rfl⟩ := exec_endsInStores h
  case inl =>
    cases hu.eq_of_none hk
    exact ⟨SameBytesExcept.refl _ s, rfl, rfl, rfl, hk, .inr (.inr ⟨r, rfl⟩)⟩
  case inr.inl =>
    obtain ⟨hkey, hkbd, hbytes⟩ := hu.of_none hk
    exact ⟨hbytes, timer, hkbd, turns, hkey, .inl hu.status⟩
  case inr.inr =>
    obtain ⟨hkey, hkbd, hbytes⟩ := hu.of_none hk
    exact ⟨hbytes, timer, hkbd, turns, hkey, .inr (.inl ⟨hi, rfl⟩)⟩

end Sys2Proof.Machine
end

section
/-! What each turn of an agent can do, and the whole-machine rules read off it: the invariant of every step, where a run halts, how
a request moves, and what a fault keeps (spec/10_state.md section 8, spec/60_exceptions.md sections 1 to 3). -/

namespace Sys2Proof.Machine

/-! ## What a turn can do -/

/-- The state in which the Keyboard's pending key is put into a cycle, past the point after the fetch. -/
def withKey (p : KeyPoint) (key : Byte) (s : State) : State :=
  State.landKey .afterFetch { s with overlapKey := some (p, key) }

theorem withKey_stores (p : KeyPoint) (key : Byte) (s : State) :
    Stores [] { s with overlapKey := some (p, key) } (withKey p key s) := Stores.refl.landKey _

section

variable {s t : State}

/-- A cycle is the fault of its fetch or one exec. -/
theorem cycle_cases (h : cycle s = .next t) :
    (∃ r, fetch s = .error r ∧ t = s.takeFault r) ∨ ∃ i, fetch s = .ok i ∧ exec i s = .next t := by
  cases hf : fetch s with
  | ok i => rw [cycle_of_fetch hf] at h; exact .inr ⟨i, rfl, h⟩
  | error r => rw [cycle_of_fetch_error hf] at h; cases h; exact .inl ⟨r, rfl, rfl⟩

/-- A cycle with a key is a plain cycle where the Keyboard does not poll, else the fault of its fetch or one exec, settled. -/
theorem cycleWithKey_cases {p : KeyPoint} {key : Byte} (h : cycleWithKey p key s = .next t) :
    (s.kbdReq ≠ .enabled ∧ cycle s = .next t) ∨ (∃ r, fetch s = .error r ∧ t = s.takeFault r) ∨
      (s.kbdReq = .enabled ∧ ∃ i u, fetch s = .ok i ∧ exec i (withKey p key s) = .next u ∧ t = settleKey u) := by
  by_cases hk : s.kbdReq = .enabled
  · refine .inr ?_
    cases hf : fetch s with
    | error r => rw [cycleWithKey_of_fetch_error hk hf] at h; cases h; exact .inl ⟨r, rfl, rfl⟩
    | ok i =>
      obtain ⟨u, hu⟩ := exec_next i (withKey p key s)
      rw [cycleWithKey_of_fetch hk hf hu] at h
      cases h
      exact .inr ⟨hk, i, u, rfl, hu, rfl⟩
  · rw [cycleWithKey_of_not_enabled hk] at h
    exact .inl ⟨hk, h⟩

/-- R177: the Timer's test, its delivery, or the delivery's fault. -/
theorem timerTurn_cases (h : timerTurn s = .next t) :
    (s.timerReq = .idle ∧ t = timerTest s) ∨
      (s.timerReq = .armed ∧ ((∃ u, raise s 0 = .ok u ∧ t = { u with timerReq := .idle }) ∨ ∃ r, t = s.takeFault r)) := by
  cases hreq : s.timerReq with
  | idle => rw [timerTurn_of_idle hreq] at h; cases h; exact .inl ⟨rfl, rfl⟩
  | armed =>
    cases hraise : raise s 0 with
    | ok u => rw [timerTurn_of_raised hreq hraise] at h; cases h; exact .inr ⟨rfl, .inl ⟨u, rfl, rfl⟩⟩
    | error r => rw [timerTurn_of_raise_error hreq hraise] at h; cases h; exact .inr ⟨rfl, .inr ⟨r, rfl⟩⟩

/-- R178: the Keyboard's test, its poll, its delivery, or the delivery's fault. -/
theorem keyboardTurn_cases {input : Option Byte} (h : keyboardTurn input s = .next t) :
    (s.kbdReq = .idle ∧ t = kbdTest s) ∨ (s.kbdReq = .enabled ∧ t = kbdPoll input s) ∨
      (s.kbdReq = .latched ∧ ((∃ u, raise s 1 = .ok u ∧ t = { u with kbdReq := .idle }) ∨ ∃ r, t = s.takeFault r)) := by
  cases hreq : s.kbdReq with
  | idle => rw [keyboardTurn_of_idle hreq] at h; cases h; exact .inl ⟨rfl, rfl⟩
  | enabled => rw [keyboardTurn_of_enabled hreq] at h; cases h; exact .inr (.inl ⟨rfl, rfl⟩)
  | latched =>
    cases hraise : raise s 1 with
    | ok u => rw [keyboardTurn_of_raised hreq hraise] at h; cases h; exact .inr (.inr ⟨rfl, .inl ⟨u, rfl, rfl⟩⟩)
    | error r => rw [keyboardTurn_of_raise_error hreq hraise] at h; cases h; exact .inr (.inr ⟨rfl, .inr ⟨r, rfl⟩⟩)

end

/-- `raise` stores words and lands no key (R142). -/
theorem exists_raise_stores {s t : State} {v : Fin 4} (h : raise s v = .ok t) : ∃ ws, Stores ws s t :=
  ⟨[regAddr .sp, s.pushAddr, regAddr .ip], raise_stores h (by simp) (by simp) (by simp)⟩

/-! ## The fields outside memory that an operation leaves alone -/

section

variable (s : State)

@[simp] theorem timerTest_mem : (timerTest s).mem = s.mem := by rw [timerTest]; split <;> rfl
@[simp] theorem timerTest_kbdReq : (timerTest s).kbdReq = s.kbdReq := by rw [timerTest]; split <;> rfl
@[simp] theorem timerTest_schedule : (timerTest s).schedule = s.schedule := by rw [timerTest]; split <;> rfl
@[simp] theorem timerTest_overlapKey : (timerTest s).overlapKey = s.overlapKey := by rw [timerTest]; split <;> rfl

@[simp] theorem kbdTest_mem : (kbdTest s).mem = s.mem := by rw [kbdTest]; split <;> rfl
@[simp] theorem kbdTest_timerReq : (kbdTest s).timerReq = s.timerReq := by rw [kbdTest]; split <;> rfl
@[simp] theorem kbdTest_schedule : (kbdTest s).schedule = s.schedule := by rw [kbdTest]; split <;> rfl
@[simp] theorem kbdTest_overlapKey : (kbdTest s).overlapKey = s.overlapKey := by rw [kbdTest]; split <;> rfl

@[simp] theorem kbdPoll_timerReq (input : Option Byte) : (kbdPoll input s).timerReq = s.timerReq := by
  cases input <;> rfl
@[simp] theorem kbdPoll_schedule (input : Option Byte) : (kbdPoll input s).schedule = s.schedule := by
  cases input <;> rfl
@[simp] theorem kbdPoll_overlapKey (input : Option Byte) : (kbdPoll input s).overlapKey = s.overlapKey := by
  cases input <;> rfl

@[simp] theorem settleKey_status : (settleKey s).status = s.status := by
  obtain ⟨_, h⟩ | ⟨_, h⟩ := settleKey_cases s <;> simp [h]
@[simp] theorem settleKey_timerReq : (settleKey s).timerReq = s.timerReq := by
  obtain ⟨_, h⟩ | ⟨_, h⟩ := settleKey_cases s <;> simp [h]
@[simp] theorem settleKey_schedule : (settleKey s).schedule = s.schedule := by
  obtain ⟨_, h⟩ | ⟨_, h⟩ := settleKey_cases s <;> simp [h]
@[simp] theorem settleKey_overlapKey : (settleKey s).overlapKey = none := by
  obtain ⟨_, h⟩ | ⟨_, h⟩ := settleKey_cases s <;> simp [h]

@[simp] theorem withKey_status (p : KeyPoint) (key : Byte) : (withKey p key s).status = s.status :=
  (withKey_stores p key s).status
@[simp] theorem withKey_timerReq (p : KeyPoint) (key : Byte) : (withKey p key s).timerReq = s.timerReq :=
  (withKey_stores p key s).timerReq
@[simp] theorem withKey_schedule (p : KeyPoint) (key : Byte) : (withKey p key s).schedule = s.schedule :=
  (withKey_stores p key s).schedule

end

theorem wf_settleKey {s : State} (h : s.mem.wf = true) : (settleKey s).mem.wf = true := by
  obtain ⟨_, e⟩ | ⟨_, e⟩ := settleKey_cases s <;> rw [e]
  · exact wf_landPending h
  · exact h

theorem wf_kbdPoll {s : State} (h : s.mem.wf = true) (input : Option Byte) : (kbdPoll input s).mem.wf = true := by
  cases input with
  | none => exact h
  | some key => exact wf_storeKey h key

/-! ## The invariant -/

section

variable {s t : State}

theorem takeFault_inv (h : s.Inv) (r : FaultReason) : (s.takeFault r).Inv := h

theorem exec_inv {i : Instr} (hs : s.Inv) (h : exec i s = .next t) : t.Inv :=
  ⟨exec_wf h hs.1, exec_overlapKey h hs.2⟩

theorem raise_inv {v : Fin 4} (hs : s.Inv) (h : raise s v = .ok t) : t.Inv := by
  obtain ⟨ws, hws⟩ := exists_raise_stores h
  exact ⟨hws.wf hs.1, (hws.of_none hs.2).1⟩

theorem cycle_inv (hs : s.Inv) (h : cycle s = .next t) : t.Inv := by
  obtain ⟨r, -, rfl⟩ | ⟨i, -, h⟩ := cycle_cases h
  · exact takeFault_inv hs r
  · exact exec_inv hs h

theorem cycleWithKey_inv {p : KeyPoint} {key : Byte} (hs : s.Inv) (h : cycleWithKey p key s = .next t) : t.Inv := by
  obtain ⟨-, h⟩ | ⟨r, -, rfl⟩ | ⟨-, i, u, -, hu, rfl⟩ := cycleWithKey_cases h
  · exact cycle_inv hs h
  · exact takeFault_inv hs r
  · exact ⟨wf_settleKey (exec_wf hu ((withKey_stores p key s).wf hs.1)), settleKey_overlapKey u⟩

theorem timerTurn_inv (hs : s.Inv) (h : timerTurn s = .next t) : t.Inv := by
  obtain ⟨-, rfl⟩ | ⟨-, ⟨u, hu, rfl⟩ | ⟨r, rfl⟩⟩ := timerTurn_cases h
  · simpa [State.Inv] using hs
  · have hinv : u.Inv := raise_inv hs hu
    exact hinv
  · exact takeFault_inv hs r

theorem keyboardTurn_inv {input : Option Byte} (hs : s.Inv) (h : keyboardTurn input s = .next t) : t.Inv := by
  obtain ⟨-, rfl⟩ | ⟨-, rfl⟩ | ⟨-, ⟨u, hu, rfl⟩ | ⟨r, rfl⟩⟩ := keyboardTurn_cases h
  · simpa [State.Inv] using hs
  · exact ⟨wf_kbdPoll hs.1 input, (kbdPoll_overlapKey s input).trans hs.2⟩
  · have hinv : u.Inv := raise_inv hs hu
    exact hinv
  · exact takeFault_inv hs r

theorem runTurn_inv {turn : Turn} (hs : s.Inv) (h : runTurn turn s = .next t) : t.Inv := by
  cases turn with
  | cpu => exact cycle_inv hs h
  | cpuWithKey p key => exact cycleWithKey_inv hs h
  | timer => exact timerTurn_inv hs h
  | keyboard input => exact keyboardTurn_inv hs h

theorem takeTurn_inv (hs : s.Inv) : (takeTurn s).2.Inv := by simpa [State.Inv] using hs

/-- A step is a turn of one agent in the state that the turn was taken from. -/
theorem runTurn_of_step (h : step s = .next t) : runTurn (takeTurn s).1 (takeTurn s).2 = .next t := by
  rwa [step_of_running (running_of_step h)] at h

end

/-- Settles O43: every turn of every agent keeps the invariant, and taking a turn off the schedule does. -/
theorem stepKeepsTheInvariant : Obligations.StepKeepsTheInvariant :=
  fun _ _ hs h => runTurn_inv (takeTurn_inv hs) (runTurn_of_step h)

/-- Settles O44. -/
theorem resetMeetsTheInvariant : Obligations.ResetMeetsTheInvariant := ⟨rfl, rfl⟩

/-- Settles O45: an image that is loaded fits in memory, and is laid out in canonical form. -/
theorem bootMeetsTheInvariant : Obligations.BootMeetsTheInvariant := by
  intro img turns s h
  by_cases hlen : img.length ≤ 65535
  · rw [State.boot_of_le turns hlen] at h
    cases h
    exact ⟨wfFrom_imageCells (by rw [memSize]; omega), rfl⟩
  · rw [State.boot_of_gt turns (by omega)] at h
    cases h

/-! ## Where a run halts -/

section

variable {s t : State}

theorem cycle_halted (hrun : s.status = .running) (h : cycle s = .next t) (ht : t.status = .halted) :
    fetch s = .ok .halt := by
  obtain ⟨r, -, rfl⟩ | ⟨i, hf, h⟩ := cycle_cases h
  · cases ht
  · obtain e | ⟨rfl, -⟩ | ⟨r, e⟩ := exec_status h
    · rw [ht, hrun] at e; cases e
    · exact hf
    · rw [ht] at e; cases e

theorem cycleWithKey_halted {p : KeyPoint} {key : Byte} (hrun : s.status = .running) (h : cycleWithKey p key s = .next t)
    (ht : t.status = .halted) : fetch s = .ok .halt := by
  obtain ⟨-, h⟩ | ⟨r, -, rfl⟩ | ⟨-, i, u, hf, hu, rfl⟩ := cycleWithKey_cases h
  · exact cycle_halted hrun h ht
  · cases ht
  · rw [settleKey_status] at ht
    obtain e | ⟨rfl, -⟩ | ⟨r, e⟩ := exec_status hu
    · rw [ht, withKey_status, hrun] at e; cases e
    · exact hf
    · rw [ht] at e; cases e

theorem timerTurn_not_halted (hrun : s.status = .running) (h : timerTurn s = .next t) : t.status ≠ .halted := by
  obtain ⟨-, rfl⟩ | ⟨-, ⟨u, hu, rfl⟩ | ⟨r, rfl⟩⟩ := timerTurn_cases h
  · simp [hrun]
  · simp [raise_status hu, hrun]
  · simp

theorem keyboardTurn_not_halted {input : Option Byte} (hrun : s.status = .running) (h : keyboardTurn input s = .next t) :
    t.status ≠ .halted := by
  obtain ⟨-, rfl⟩ | ⟨-, rfl⟩ | ⟨-, ⟨u, hu, rfl⟩ | ⟨r, rfl⟩⟩ := keyboardTurn_cases h
  · simp [hrun]
  · simp [hrun]
  · simp [raise_status hu, hrun]
  · simp

end

/-- Settles O36: an agent's turn does not halt, and a CPU turn halts by exec of `H` alone. -/
theorem onlyHaltHalts : Obligations.OnlyHaltHalts := by
  intro s t h ht
  have hrun : (takeTurn s).2.status = .running := (takeTurn_status s).trans (running_of_step h)
  have hfetch : fetch (takeTurn s).2 = fetch s := fetch_of_mem (takeTurn_mem s)
  replace h := runTurn_of_step h
  cases hturn : (takeTurn s).1 <;> rw [hturn] at h
  case cpu => exact ⟨hfetch ▸ cycle_halted hrun h ht, .inl rfl⟩
  case cpuWithKey p key => exact ⟨hfetch ▸ cycleWithKey_halted hrun h ht, .inr ⟨p, key, rfl⟩⟩
  case timer => exact absurd ht (timerTurn_not_halted hrun h)
  case keyboard => exact absurd ht (keyboardTurn_not_halted hrun h)

/-! ## How a request moves -/

section

variable {s t : State}

theorem cycle_timerReq (h : cycle s = .next t) : t.timerReq = s.timerReq := by
  obtain ⟨r, -, rfl⟩ | ⟨i, -, h⟩ := cycle_cases h
  · rfl
  · exact exec_timerReq h

theorem cycle_kbdReq (hk : s.kbdReq ≠ .enabled) (h : cycle s = .next t) : t.kbdReq = s.kbdReq := by
  obtain ⟨r, -, rfl⟩ | ⟨i, -, h⟩ := cycle_cases h
  · rfl
  · exact exec_kbdReq h hk

theorem cycle_schedule (h : cycle s = .next t) : t.schedule = s.schedule := by
  obtain ⟨r, -, rfl⟩ | ⟨i, -, h⟩ := cycle_cases h
  · rfl
  · exact exec_schedule h

/-- No turn but the Timer's moves the Timer's request. -/
theorem runTurn_timerReq {turn : Turn} (hturn : turn ≠ .timer) (h : runTurn turn s = .next t) :
    t.timerReq = s.timerReq := by
  cases turn with
  | cpu => exact cycle_timerReq h
  | cpuWithKey p key =>
    obtain ⟨-, h⟩ | ⟨r, -, rfl⟩ | ⟨-, i, u, -, hu, rfl⟩ := cycleWithKey_cases h
    · exact cycle_timerReq h
    · rfl
    · rw [settleKey_timerReq, exec_timerReq hu, withKey_timerReq]
  | timer => exact absurd rfl hturn
  | keyboard input =>
    obtain ⟨-, rfl⟩ | ⟨-, rfl⟩ | ⟨-, ⟨u, hu, rfl⟩ | ⟨r, rfl⟩⟩ := keyboardTurn_cases h
    · exact kbdTest_timerReq s
    · exact kbdPoll_timerReq s input
    · obtain ⟨_, hws⟩ := exists_raise_stores hu; exact hws.timerReq
    · rfl

/-- No turn but the Keyboard's moves the Keyboard's request, unless the Keyboard polls. -/
theorem runTurn_kbdReq {turn : Turn} (hturn : ∀ input, turn ≠ .keyboard input) (hk : s.kbdReq ≠ .enabled)
    (h : runTurn turn s = .next t) : t.kbdReq = s.kbdReq := by
  cases turn with
  | cpu => exact cycle_kbdReq hk h
  | cpuWithKey p key =>
    obtain ⟨-, h⟩ | ⟨r, -, rfl⟩ | ⟨henabled, -⟩ := cycleWithKey_cases h
    · exact cycle_kbdReq hk h
    · rfl
    · exact absurd henabled hk
  | timer =>
    obtain ⟨-, rfl⟩ | ⟨-, ⟨u, hu, rfl⟩ | ⟨r, rfl⟩⟩ := timerTurn_cases h
    · exact timerTest_kbdReq s
    · obtain ⟨_, hws⟩ := exists_raise_stores hu; exact hws.kbdReq hk
    · rfl
  | keyboard input => exact absurd rfl (hturn input)

/-- A turn grants no turn: the schedule is taken off by the step alone. -/
theorem runTurn_schedule {turn : Turn} (h : runTurn turn s = .next t) : t.schedule = s.schedule := by
  cases turn with
  | cpu => exact cycle_schedule h
  | cpuWithKey p key =>
    obtain ⟨-, h⟩ | ⟨r, -, rfl⟩ | ⟨-, i, u, -, hu, rfl⟩ := cycleWithKey_cases h
    · exact cycle_schedule h
    · rfl
    · rw [settleKey_schedule, exec_schedule hu, withKey_schedule]
  | timer =>
    obtain ⟨-, rfl⟩ | ⟨-, ⟨u, hu, rfl⟩ | ⟨r, rfl⟩⟩ := timerTurn_cases h
    · exact timerTest_schedule s
    · obtain ⟨_, hws⟩ := exists_raise_stores hu; exact hws.schedule
    · rfl
  | keyboard input =>
    obtain ⟨-, rfl⟩ | ⟨-, rfl⟩ | ⟨-, ⟨u, hu, rfl⟩ | ⟨r, rfl⟩⟩ := keyboardTurn_cases h
    · exact kbdTest_schedule s
    · exact kbdPoll_schedule s input
    · obtain ⟨_, hws⟩ := exists_raise_stores hu; exact hws.schedule
    · rfl

/-- The Timer's turn leaves an idle request idle unless IE is set (R177). -/
theorem timerTurn_leaves_idle (hidle : s.timerReq = .idle) (h : timerTurn s = .next t) (ht : t.timerReq ≠ .idle) :
    (s.reg .fl &&& 0x8000) ≠ 0 := by
  intro hie
  rw [timerTurn_of_idle_clear hidle hie] at h
  cases h
  exact ht hidle

/-- The Keyboard's turn with IE clear leaves an idle Keyboard's state as it was (R178). -/
theorem keyboardTurn_idle_clear_eq {input : Option Byte} (hidle : s.kbdReq = .idle) (hie : (s.reg .fl &&& 0x8000) = 0)
    (h : keyboardTurn input s = .next t) : t = s := by
  rw [keyboardTurn_of_idle_clear hidle hie] at h
  cases h
  rfl

end

/-- Settles O48: by the turn that the step took. -/
theorem onlyTheIeTestArmsARequest : Obligations.OnlyTheIeTestArmsARequest := by
  intro s t h
  have hfl : (takeTurn s).2.reg .fl = s.reg .fl := reg_of_mem (takeTurn_mem s) .fl
  replace h := runTurn_of_step h
  refine ⟨fun hidle ht => ?timer, fun hidle ht => ?keyboard, fun hidle hturn hie => ?clear⟩
  case timer =>
    rw [← takeTurn_timerReq] at hidle
    have hturn : (takeTurn s).1 = .timer := by_contra fun hne => ht ((runTurn_timerReq hne h).trans hidle)
    rw [hturn] at h
    exact ⟨hfl ▸ timerTurn_leaves_idle hidle h ht, hturn⟩
  case keyboard =>
    rw [← takeTurn_kbdReq] at hidle
    have hturn : ∃ input, (takeTurn s).1 = .keyboard input := by
      by_contra hne
      exact ht ((runTurn_kbdReq (not_exists.mp hne) (ne_of_eq_of_ne hidle (by decide)) h).trans hidle)
    refine ⟨fun hie => ?_, hturn⟩
    obtain ⟨input, hin⟩ := hturn
    rw [hin] at h
    rw [keyboardTurn_idle_clear_eq hidle (hfl ▸ hie) h] at ht
    exact ht hidle
  case clear =>
    rw [← takeTurn_kbdReq] at hidle
    obtain ⟨input, hin⟩ := hturn
    rw [hin] at h
    rw [keyboardTurn_idle_clear_eq hidle (hfl ▸ hie) h]
    exact ⟨hidle, takeTurn_mem s⟩

/-! ## Faults -/

/-- Settles O55: the step is a transaction, and a transaction that faults leaves the state it began in. -/
theorem faultKeepsAllButTheStatus : Obligations.FaultKeepsAllButTheStatus := by
  rintro s t r ⟨-, hkey⟩ hturn hstep hr
  obtain ⟨_, hends⟩ := step_endsAs (running_of_step hstep) hkey hturn
  exact hends.eq_takeFault hstep hr

/-- Settles O57: the delivery's `raise` faults at the push. -/
theorem faultingDeliveryKeepsTheRequest : Obligations.FaultingDeliveryKeepsTheRequest := by
  intro s turns hrun htop
  have hraise : ∀ v, raise { s with schedule := turns } v = .error .addressOutOfRange :=
    fun v => (raise_eq _ v).trans (if_pos htop)
  refine ⟨fun hsched harmed => ?timer, fun input hsched hlatched => ?keyboard⟩ <;> rw [step_of_schedule hrun hsched]
  case timer => exact timerTurn_of_raise_error (s := { s with schedule := turns }) harmed (hraise 0)
  case keyboard => exact keyboardTurn_of_raise_error (s := { s with schedule := turns }) hlatched (hraise 1) input

end Sys2Proof.Machine
end

section
/-! What the instructions without a stack store, and what they leave unchanged (spec/10_state.md section 1, spec/20_memory.md
section 11, spec/40_compare_branch.md, spec/41_store_copy.md, spec/42_arith_logic.md, spec/44_yield_halt.md). -/

namespace Sys2Proof.Machine

/-! ## Registers -/

/-- The 16-bit registers end below `0x0018`, the address of KB (R21, R28). -/
theorem not_mem_regCells_of_le {a : Word} (ha : 0x0018 ≤ a.toNat) (r : Reg) : a ∉ regCells r := by
  obtain ⟨-, hle⟩ := regAddr_even r
  have hsucc := regAddr_succ_toNat r
  intro h
  obtain rfl | rfl := mem_cells.mp h <;> omega

/-- Settles O12: the addresses, and that the register cells are pairwise apart and apart from KB. -/
theorem registersAreSeparateCells : Obligations.RegistersAreSeparateCells := by
  refine ⟨by decide, fun s r v hwf => ⟨reg_setReg_same hwf r v, fun r' hr => reg_setReg_other hr, ?kb, sameBytes_setReg s r v⟩⟩
  case kb => exact byte_setWord_other (not_mem_regCells_of_le (by decide) r)

/-! ## The frame of one store after IP <- next -/

/-- What one store at `d` after IP <- next leaves as it was: IP is next where `d` does not cover it, and nothing but the word at `d`
and IP has changed. -/
def KeepsFrame (len : Nat) (d : Word) (s t : State) : Prop :=
  (apartReg d .ip → t.reg .ip = s.nextIp len) ∧ SameBytesExcept (cells d) (s.advance len) t ∧
    SameBytesExcept (cells d ++ regCells .ip) s t ∧ SameControl s t

/-- A change of the bytes `w'` after a change of the bytes `w` is a change of both. -/
theorem SameBytesExcept.append {w w' : List Word} {s t u : State} (h : SameBytesExcept w s t) (h' : SameBytesExcept w' t u) :
    SameBytesExcept (w' ++ w) s u :=
  (h.mono fun _ hx => List.mem_append_right _ hx).trans (h'.mono fun _ hx => List.mem_append_left _ hx)

theorem keepsFrame_setWord {s : State} (hwf : s.mem.wf = true) (len : Nat) (d w : Word) :
    KeepsFrame len d s ((s.advance len).setWord d w) := by
  refine ⟨fun hd => ?ip, sameBytes_setWord _ d w, (sameBytes_advance s len).append (sameBytes_setWord _ d w), SameControl.refl s⟩
  case ip => rw [reg_setWord_apart hd, reg_advance_ip hwf]

/-- Settles O15. -/
theorem storeImmediateWritesTheLiteral : Obligations.StoreImmediateWritesTheLiteral := by
  intro s d v hwf hd
  rw [exec_storeImm, if_neg hd]
  exact ⟨_, rfl, word_setWord_same (wf_advance hwf 5) d v, keepsFrame_setWord hwf 5 d v⟩

/-- Settles O14: the one write is that of IP. -/
theorem branchComparesLiterals : Obligations.BranchComparesLiterals := by
  intro s a b target hwf
  refine ⟨_, exec_brEq a b target s, fun h => ?equal, fun h => ?different, sameBytes_setReg s .ip _, SameControl.refl s⟩
  case equal => rw [reg_setReg_same hwf, if_pos h]
  case different => rw [reg_setReg_same hwf, if_neg h]; rfl

/-- `l` between addresses below the top, with no key pending. -/
theorem exec_copy_ok {s : State} (hk : s.overlapKey = none) {d src : Word} (hd : d ≠ 0xFFFF) (hsrc : src ≠ 0xFFFF) :
    exec (.copy d src) s = .next ((s.advance 5).setWord d ((s.advance 5).word src)) := by
  rw [exec_copy_of_none hk, if_neg (not_or.mpr ⟨hsrc, hd⟩)]

/-- `n` between addresses below the top, with no key pending. -/
theorem exec_lnot_ok {s : State} (hk : s.overlapKey = none) {d src : Word} (hd : d ≠ 0xFFFF) (hsrc : src ≠ 0xFFFF) :
    exec (.lnot d src) s = .next ((s.advance 5).setWord d (notOp ((s.advance 5).word src))) := by
  rw [exec_lnot_of_none hk, if_neg (not_or.mpr ⟨hsrc, hd⟩)]

/-- Settles O16: the source is read whole after IP <- next, and the one store follows. -/
theorem copyMovesTheWord : Obligations.CopyMovesTheWord := by
  intro s d src ⟨hwf, hk⟩ hd hsrc
  have hword := word_setWord_same (wf_advance hwf 5) d ((s.advance 5).word src)
  refine ⟨_, exec_copy_ok hk hd hsrc, hword, fun hip => ?apart, fun hip => ?next, keepsFrame_setWord hwf 5 d _⟩
  case apart => rw [hword, word_advance_apart hip]
  case next => subst hip; exact hword.trans (reg_advance_ip hwf 5)

/-- Settles O21. -/
theorem logicalNotIsATruthValue : Obligations.LogicalNotIsATruthValue := by
  intro s d src ⟨hwf, hk⟩ hd hsrc
  have hword := (word_setWord_same (wf_advance hwf 5) d (notOp ((s.advance 5).word src))).trans (notOp_eq _)
  exact ⟨_, exec_lnot_ok hk hd hsrc, fun h => hword.trans (if_pos h), fun h => hword.trans (if_neg h),
    keepsFrame_setWord hwf 5 d _⟩

/-! ## The three-address instructions -/

section

variable {s : State} {i : Instr} {f : Word → Word → Except FaultReason Word} {d s1 s2 : Word}

/-- A three-address instruction whose operator answers stores the answer. -/
theorem exec_ternary_ok (hk : s.overlapKey = none) (hi : ternaryOp i = some (f, d, s1, s2)) (hd : d ≠ 0xFFFF)
    (h1 : s1 ≠ 0xFFFF) (h2 : s2 ≠ 0xFFFF) {r : Word} (hf : f ((s.advance 7).word s1) ((s.advance 7).word s2) = .ok r) :
    exec i s = .next ((s.advance 7).setWord d r) := by
  rw [exec_ternary_of_none hk hi, if_neg (by tauto), hf]

/-- A three-address instruction whose operator faults leaves the state before it. -/
theorem exec_ternary_error (hk : s.overlapKey = none) (hi : ternaryOp i = some (f, d, s1, s2)) (hd : d ≠ 0xFFFF)
    (h1 : s1 ≠ 0xFFFF) (h2 : s2 ≠ 0xFFFF) {r : FaultReason}
    (hf : f ((s.advance 7).word s1) ((s.advance 7).word s2) = .error r) : exec i s = .next (s.takeFault r) := by
  rw [exec_ternary_of_none hk hi, if_neg (by tauto), hf]

end

/-- R122: the difference, as an exact integer, modulo 2^16. -/
theorem toNat_subOp (a b : Word) : ((subOp a b).toNat : Int) = (a.toNat - b.toNat : Int) % 65536 := by
  rw [subOp, BitVec.toNat_ofInt]
  exact Int.toNat_of_nonneg (Int.emod_nonneg _ (by decide))

/-- Settles O17: one store of the operator's exact result modulo 2^16. -/
theorem addSubMulAreModulo65536 : Obligations.AddSubMulAreModulo65536 := by
  intro s d s1 s2 ⟨hwf, hk⟩ hd h1 h2
  have hword := word_setWord_same (wf_advance hwf 7) d
  refine ⟨_, _, _, exec_ternary_ok hk rfl hd h1 h2 rfl, exec_ternary_ok hk rfl hd h1 h2 rfl,
    exec_ternary_ok hk rfl hd h1 h2 rfl, ?add, ?sub, ?mul, ?frame⟩
  case add => rw [hword]; exact BitVec.toNat_ofNat _ _
  case sub => rw [hword]; exact toNat_subOp _ _
  case mul => rw [hword]; exact BitVec.toNat_ofNat _ _
  case frame => simpa only [List.forall_mem_cons, List.not_mem_nil, false_imp_iff, implies_true, and_true] using
      ⟨keepsFrame_setWord hwf 7 d _, keepsFrame_setWord hwf 7 d _, keepsFrame_setWord hwf 7 d _⟩

/-- Settles O18. -/
theorem logicOperatorsAreBitwise : Obligations.LogicOperatorsAreBitwise := by
  intro s d s1 s2 ⟨hwf, hk⟩ hd h1 h2
  have hword := word_setWord_same (wf_advance hwf 7) d
  refine ⟨_, _, _, exec_ternary_ok hk rfl hd h1 h2 rfl, exec_ternary_ok hk rfl hd h1 h2 rfl,
    exec_ternary_ok hk rfl hd h1 h2 rfl, fun k _ => ⟨?or, ?and, ?xor⟩, ?frame⟩
  case or => rw [hword, orOp_eq, BitVec.getLsbD_or]
  case and => rw [hword, andOp_eq, BitVec.getLsbD_and]
  case xor => rw [hword, xorOp_eq, BitVec.getLsbD_xor]
  case frame => simpa only [List.forall_mem_cons, List.not_mem_nil, false_imp_iff, implies_true, and_true] using
      ⟨keepsFrame_setWord hwf 7 d _, keepsFrame_setWord hwf 7 d _, keepsFrame_setWord hwf 7 d _⟩

theorem divOp_of_ne {a b : Word} (h : b ≠ 0) : divOp a b = .ok (a / b) := by rw [divOp_eq, if_neg h]

theorem modOp_of_ne {a b : Word} (h : b ≠ 0) : modOp a b = .ok (a % b) := by rw [modOp_eq, if_neg h]

theorem divOp_zero {a b : Word} (h : b = 0) : divOp a b = .error .arithmeticFault := by rw [divOp_eq, if_pos h]

theorem modOp_zero {a b : Word} (h : b = 0) : modOp a b = .error .arithmeticFault := by rw [modOp_eq, if_pos h]

/-- Settles O19: the quotient and remainder are those of the natural numbers. -/
theorem divideAndModuloAreUnsigned : Obligations.DivideAndModuloAreUnsigned := by
  intro s d s1 s2 ⟨hwf, hk⟩ hd h1 h2 hne
  have hword := word_setWord_same (wf_advance hwf 7) d
  have hpos : 0 < ((s.advance 7).word s2).toNat := Nat.pos_of_ne_zero fun h => hne (BitVec.eq_of_toNat_eq h)
  refine ⟨_, _, exec_ternary_ok hk rfl hd h1 h2 (divOp_of_ne hne), exec_ternary_ok hk rfl hd h1 h2 (modOp_of_ne hne),
    ?quotient, ?remainder, ?identity, ?frame⟩
  case quotient => rw [hword, BitVec.toNat_udiv]
  case remainder => rw [hword, BitVec.toNat_umod]; exact Nat.mod_lt _ hpos
  case identity => rw [hword, hword, BitVec.toNat_udiv, BitVec.toNat_umod, Nat.mul_comm]; exact Nat.div_add_mod _ _
  case frame => simpa only [List.forall_mem_cons, List.not_mem_nil, false_imp_iff, implies_true, and_true] using
      ⟨keepsFrame_setWord hwf 7 d _, keepsFrame_setWord hwf 7 d _⟩

/-- Settles O20. -/
theorem zeroDivisorTraps : Obligations.ZeroDivisorTraps := by
  intro s d s1 s2 ⟨_, hk⟩ hd h1 h2 hzero
  exact ⟨exec_ternary_error hk rfl hd h1 h2 (divOp_zero hzero), exec_ternary_error hk rfl hd h1 h2 (modOp_zero hzero)⟩

/-- The three-address instructions with the operations of the spec on words (R121 to R128). -/
def threeAddressOps : List ((Word → Word → Word → Instr) × (Word → Word → Word)) :=
  [(Instr.add, fun a b => a + b), (Instr.sub, fun a b => a - b), (Instr.mul, fun a b => a * b),
    (Instr.div, fun a b => a / b), (Instr.mod, fun a b => a % b), (Instr.or, fun a b => a ||| b),
    (Instr.and, fun a b => a &&& b), (Instr.xor, fun a b => a ^^^ b)]

/-- Each of them is the three-address shape over an operator that answers its operation on words, but for a zero divisor. -/
theorem ternaryOp_of_mem {p : (Word → Word → Word → Instr) × (Word → Word → Word)} (hp : p ∈ threeAddressOps) :
    ∃ f, (∀ d s1 s2, ternaryOp (p.1 d s1 s2) = some (f, d, s1, s2)) ∧
      ∀ a b, ((p.1 = Instr.div ∨ p.1 = Instr.mod) → b ≠ 0) → f a b = .ok (p.2 a b) := by
  simp only [threeAddressOps, List.mem_cons, List.not_mem_nil, or_false] at hp
  obtain rfl | rfl | rfl | rfl | rfl | rfl | rfl | rfl := hp
  · exact ⟨_, fun _ _ _ => rfl, fun a b _ => congrArg Except.ok (addOp_eq a b)⟩
  · exact ⟨_, fun _ _ _ => rfl, fun a b _ => congrArg Except.ok (subOp_eq a b)⟩
  · exact ⟨_, fun _ _ _ => rfl, fun a b _ => congrArg Except.ok (mulOp_eq a b)⟩
  · exact ⟨_, fun _ _ _ => rfl, fun a b hb => divOp_of_ne (hb (.inl rfl))⟩
  · exact ⟨_, fun _ _ _ => rfl, fun a b hb => modOp_of_ne (hb (.inr rfl))⟩
  · exact ⟨_, fun _ _ _ => rfl, fun a b _ => congrArg Except.ok (orOp_eq a b)⟩
  · exact ⟨_, fun _ _ _ => rfl, fun a b _ => congrArg Except.ok (andOp_eq a b)⟩
  · exact ⟨_, fun _ _ _ => rfl, fun a b _ => congrArg Except.ok (xorOp_eq a b)⟩

/-- The two instructions that divide, with their operator's answer to a zero divisor. -/
theorem ternaryOp_of_divides {mk : Word → Word → Word → Instr} (hmk : mk ∈ [Instr.div, Instr.mod]) :
    ∃ f, (∀ d s1 s2, ternaryOp (mk d s1 s2) = some (f, d, s1, s2)) ∧ ∀ a b, b = 0 → f a b = .error .arithmeticFault := by
  simp only [List.mem_cons, List.not_mem_nil, or_false] at hmk
  obtain rfl | rfl := hmk
  · exact ⟨_, fun _ _ _ => rfl, fun _ _ => divOp_zero⟩
  · exact ⟨_, fun _ _ _ => rfl, fun _ _ => modOp_zero⟩

/-- Settles O13: `word_advance` says what each source word reads after IP <- next, and each instruction stores its result on
those. -/
theorem sourcesAreReadAfterIpAdvances : Obligations.SourcesAreReadAfterIpAdvances := by
  intro s d s1 s2 ⟨hwf, hk⟩ hd h1 h2
  have hstored : ∀ len w, ((s.advance len).setWord d w).word d = w := fun len => word_setWord_same (wf_advance hwf len) d
  refine ⟨word_advance hwf, ⟨_, exec_copy_ok hk hd h1, ?copy⟩, ⟨_, exec_lnot_ok hk hd h1, ?lnot⟩, fun hpop => ?pop,
    fun p hp hdivisor => ?ternary, fun hzero mk hmk => ?trap⟩
  case copy => rw [hstored, word_advance hwf]
  case lnot => rw [hstored, notOp_eq, word_advance hwf]
  case pop =>
    rw [exec_pop_of_none hk, if_neg (not_or.mpr ⟨hpop, hd⟩)]
    exact ⟨_, rfl, (word_setWord_same (wf_setReg (wf_advance hwf 3) _ _) d _).trans (word_advance hwf 3 _)⟩
  case ternary =>
    obtain ⟨f, hi, hf⟩ := ternaryOp_of_mem hp
    rw [← word_advance hwf] at hdivisor
    refine ⟨_, exec_ternary_ok hk (hi d s1 s2) hd h1 h2 (hf _ _ hdivisor), ?_⟩
    rw [hstored, word_advance hwf, word_advance hwf]
  case trap =>
    obtain ⟨f, hi, hf⟩ := ternaryOp_of_divides hmk
    rw [← word_advance hwf] at hzero
    exact exec_ternary_error hk (hi d s1 s2) hd h1 h2 (hf _ _ hzero)

/-! ## The end of a run, and the codes -/

/-- Settles O35: `H` is the advance of IP with the status Halted. -/
theorem haltEndsTheRun : Obligations.HaltEndsTheRun :=
  fun s hwf => ⟨_, exec_halt s, rfl, rfl, reg_advance_ip hwf 1, sameBytes_advance s 1, rfl, rfl, rfl, rfl, rfl⟩

/-- Settles O38. -/
theorem exitCodesTellSuccessFromFailure : Obligations.ExitCodesTellSuccessFromFailure :=
  ⟨rfl, rfl, fun _ => ⟨rfl, by simp [exitCode, params]⟩, rfl⟩

/-- The empty memory reads 0 everywhere (R35). -/
theorem byte_reset (a : Word) : State.reset.byte a = 0 := rfl

/-- Settles O51: the byte at IP is 0, which is no opcode, so the first step is the fault of a failed fetch. -/
theorem resetIsAllZero : Obligations.ResetIsAllZero := by
  refine ⟨byte_reset, fun r => ?registers, rfl, rfl, rfl, ?step, rfl⟩
  case registers => exact (joinBytes_eq _ _).trans (by rw [byte_reset, byte_reset]; rfl)
  case step => exact step_of_fetch_error rfl (.inl rfl) (fetch_of_no_opcode (opcodeOfByte_of_not_legal (by decide)))

/-! ## Video cells -/

/-- R29: row-major from `0x0820`. -/
theorem toNat_videoAddr (r : Fin 25) (c : Fin 80) : (videoAddr r c).toNat = 0x0820 + 80 * r.val + c.val := by
  rw [videoAddr, BitVec.toNat_ofNat, vbBase, vbCols]
  exact Nat.mod_eq_of_lt (by omega)

theorem videoAddr_injective {r r' : Fin 25} {c c' : Fin 80} (h : videoAddr r c = videoAddr r' c') : (r, c) = (r', c') := by
  replace h := congrArg BitVec.toNat h
  rw [toNat_videoAddr, toNat_videoAddr] at h
  exact Prod.ext (Fin.ext (by simp only; omega)) (Fin.ext (by simp only; omega))

/-- The cell to the right in the same row is the next byte. -/
theorem videoAddr_right (r : Fin 25) {c c' : Fin 80} (h : c'.val = c.val + 1) : videoAddr r c + 1 = videoAddr r c' := by
  apply BitVec.eq_of_toNat_eq
  have hr := r.isLt
  have hc := c.isLt
  rw [BitVec.toNat_add, toNat_videoAddr, toNat_videoAddr, h, show (1 : Word).toNat = 1 from rfl]
  omega

/-- Settles O53: the two bytes of the store are the cell and the one to its right, and no other cell has those addresses. -/
theorem storeWritesTwoVideoCells : Obligations.StoreWritesTwoVideoCells := by
  refine ⟨fun r c => ⟨toNat_videoAddr r c, by rw [toNat_videoAddr]; omega⟩, fun s r c c' v hwf hright => ?_⟩
  have hwf' : (s.advance 5).mem.wf = true := wf_advance hwf 5
  have htop : videoAddr r c ≠ 0xFFFF := fun h => by
    have := congrArg BitVec.toNat h
    rw [toNat_videoAddr, show (0xFFFF : Word).toNat = 65535 from rfl] at this
    omega
  rw [exec_storeImm, if_neg htop]
  refine ⟨_, rfl, byte_setWord_low hwf' _ v, ?right, fun r' c'' hne hne' => ?others⟩
  case right => rw [State.videoCell, ← videoAddr_right r hright]; exact byte_setWord_high hwf' _ v
  case others =>
    have hcells : videoAddr r' c'' ∉ cells (videoAddr r c) := by
      rw [mem_cells, videoAddr_right r hright]
      exact not_or.mpr ⟨fun h => hne (videoAddr_injective h), fun h => hne' (videoAddr_injective h)⟩
    have hip : videoAddr r' c'' ∉ regCells .ip := not_mem_regCells_of_le (by rw [toNat_videoAddr]; omega) .ip
    exact (byte_setWord_other hcells).trans (sameBytes_advance s 5 _ hip)

end Sys2Proof.Machine
end

section
/-! The stack and the entry into an interrupt (spec/43_interrupt_stack.md, spec/60_exceptions.md sections 5 and 6): what push, pop
and raise leave in the stack word, SP and IP, and what they restore. -/

namespace Sys2Proof.Machine

/-! ## Registers outside the bytes that changed -/

/-- A word none of whose bytes was written keeps its value. -/
theorem SameBytesExcept.word_eq {w : List Word} {s t : State} (h : SameBytesExcept w s t) {a : Word}
    (ha : ∀ x ∈ cells a, x ∉ w) : t.word a = s.word a := word_congr fun x hx => h x (ha x hx)

/-- A register none of whose bytes was written keeps its value. -/
theorem SameBytesExcept.reg_eq {w : List Word} {s t : State} (h : SameBytesExcept w s t) {r : Reg}
    (hr : ∀ x ∈ regCells r, x ∉ w) : t.reg r = s.reg r := h.word_eq hr

/-- A register that holds its old value again is no change. -/
theorem SameBytesExcept.of_reg_eq {w : List Word} {s t : State} {r : Reg} (h : SameBytesExcept (regCells r ++ w) s t)
    (hr : t.reg r = s.reg r) : SameBytesExcept w s t := by
  intro a ha
  by_cases hcell : a ∈ regCells r
  · obtain rfl | rfl := mem_cells.mp hcell
    · rw [← firstByte_word, ← firstByte_word]; exact congrArg firstByte hr
    · rw [← secondByte_word, ← secondByte_word]; exact congrArg secondByte hr
  · exact h a (by simp [hcell, ha])

/-! ## One instruction -/

/-- IP <- next, a new SP and one store: the shape of `p` and `P` (R140, R141). -/
theorem sameBytes_stackStore (s : State) (len : Nat) (sp a v : Word) :
    SameBytesExcept (cells a ++ regCells .ip ++ regCells .sp) s (((s.advance len).setReg .sp sp).setWord a v) :=
  (((sameBytes_advance s len).append (sameBytes_setReg _ .sp sp)).append (sameBytes_setWord _ a v)).mono (by grind)

section

variable {s : State} (hwf : s.mem.wf = true) {len : Nat} {sp a v : Word}
include hwf

/-- SP after that shape, where the store does not cover it. -/
theorem sp_stackStore (ha : apartReg a .sp) : (((s.advance len).setReg .sp sp).setWord a v).reg .sp = sp := by
  rw [reg_setWord_apart ha, reg_setReg_same (wf_advance hwf len)]

/-- IP after that shape, where the store does not cover it. -/
theorem ip_stackStore (ha : apartReg a .ip) : (((s.advance len).setReg .sp sp).setWord a v).reg .ip = s.nextIp len := by
  rw [reg_setWord_apart ha, reg_setReg_other (by decide), reg_advance_ip hwf]

end

/-- Settles O26. -/
theorem pushStoresBelowTheTop : Obligations.PushStoresBelowTheTop := by
  intro s v hwf htop
  rw [exec_push, if_neg htop]
  exact ⟨_, rfl, word_setWord_same (wf_setReg (wf_advance hwf 3) _ _) _ v, sp_stackStore hwf, ip_stackStore hwf,
    sameBytes_setWord _ _ v, sameBytes_stackStore s 3 _ _ v, SameControl.refl s⟩

/-- Settles O27: the stack word is read after IP <- next, and D is stored last. -/
theorem popMovesTheTopOfStack : Obligations.PopMovesTheTopOfStack := by
  intro s d ⟨hwf, hk⟩ htop hd
  have hword := word_setWord_same (wf_setReg (wf_advance hwf 3) .sp (s.reg .sp - 2)) d ((s.advance 3).word s.popAddr)
  rw [exec_pop_of_none hk, if_neg (not_or.mpr ⟨htop, hd⟩)]
  exact ⟨_, rfl, hword, fun hip => hword.trans (word_advance_apart hip 3), sp_stackStore hwf, ip_stackStore hwf,
    sameBytes_setWord _ d _, sameBytes_stackStore s 3 _ d _, SameControl.refl s⟩

/-- Settles O28: the old IP is pushed, and IP is written last with the handler's address as read first. -/
theorem raiseEntersTheHandler : Obligations.RaiseEntersTheHandler := by
  intro s v hwf htop
  have hsp := wf_setReg hwf .sp (s.reg .sp + 2)
  have hpush := wf_setWord hsp s.pushAddr (s.reg .ip)
  rw [raise_eq, if_neg htop]
  refine ⟨_, rfl, reg_setReg_same hpush _ _, fun hip => ?saved, fun ha => ?sp, fun hfl => ?fl, ?frame, SameControl.refl s⟩
  case saved => rw [word_setReg_apart hip, word_setWord_same hsp]
  case sp => rw [reg_setReg_other (by decide), reg_setWord_apart ha, reg_setReg_same hwf]
  case fl => rw [reg_setReg_other (by decide), reg_setWord_apart hfl, reg_setReg_other (by decide)]
  case frame =>
    exact (((sameBytes_setReg s .sp _).append (sameBytes_setWord _ s.pushAddr _)).append (sameBytes_setReg _ .ip _)).mono
      (by grind)

/-- R143: with a vector that exists, `i` is `raise` after IP <- next. -/
theorem exec_int_of_raise {s t : State} {n : Byte} (h : n.toNat < 4) (ht : raise (s.advance 2) ⟨n.toNat, h⟩ = .ok t) :
    exec (.int n) s = .next t := by
  show commit s (if h : n.toNat < 4 then raise (s.advance 2) ⟨n.toNat, h⟩ else badVector) = _
  rw [dif_pos h, ht]
  rfl

/-- Settles O29: the entry of `raise`, from the state after IP <- next. -/
theorem softwareInterruptEntersTheHandler : Obligations.SoftwareInterruptEntersTheHandler := by
  intro s n h hwf htop
  have entry := raiseEntersTheHandler (s.advance 2) ⟨n.toNat, h⟩ (wf_advance hwf 2)
  rw [pushAddr_advance, reg_advance_ip hwf, reg_advance_other (r := .sp) (by decide), reg_advance_other (by simp)] at entry
  obtain ⟨t, ht, hip, hsaved, hsp, -, hframe, hcontrol⟩ := entry htop
  refine ⟨t, exec_int_of_raise h ht, ht, hip, hsaved, hsp, ?frame, hcontrol⟩
  case frame =>
    exact ((sameBytes_advance s 2).append hframe).mono (by grind)

/-- Settles O30: the vector is checked before anything is written. -/
theorem badVectorTraps : Obligations.BadVectorTraps := by
  intro s n hn
  rw [exec_int, dif_neg (by omega)]

/-! ## What a pop restores -/

/-- A push whose stack word covers neither SP nor SB (R140). -/
theorem push_ok {s : State} (hwf : s.mem.wf = true) (htop : s.pushAddr ≠ 0xFFFF) (hsp : apartReg s.pushAddr .sp)
    (hsb : apartReg s.pushAddr .sb) (v : Word) :
    ∃ t, push s v = .ok t ∧ t.mem.wf = true ∧ t.word s.pushAddr = v ∧ t.reg .sp = s.reg .sp + 2 ∧ t.reg .sb = s.reg .sb ∧
      SameBytesExcept (cells s.pushAddr ++ regCells .sp) s t := by
  have hwf' := wf_setReg hwf .sp (s.reg .sp + 2)
  rw [push_eq, if_neg htop]
  refine ⟨_, rfl, wf_setWord hwf' _ v, word_setWord_same hwf' _ v, ?sp, ?sb,
    (sameBytes_setReg s .sp _).append (sameBytes_setWord _ _ v)⟩
  case sp => rw [reg_setWord_apart hsp, reg_setReg_same hwf]
  case sb => rw [reg_setWord_apart hsb, reg_setReg_other (by decide)]

/-- The address a pop reads after a push is the one the push stored at (R146). -/
theorem popAddr_of_pushed {s t : State} (hsp : t.reg .sp = s.reg .sp + 2) (hsb : t.reg .sb = s.reg .sb) :
    t.popAddr = s.pushAddr := by
  rw [State.popAddr, State.pushAddr, hsp, hsb]

/-- Settles O31: the pop reads where the push stored, and SP goes back down. -/
theorem pushThenPopRestores : Obligations.PushThenPopRestores := by
  intro s v hwf htop hsp hsb
  obtain ⟨t, ht, hwf', hword, htsp, htsb, hframe⟩ := push_ok hwf htop hsp hsb v
  have hpop := popAddr_of_pushed htsp htsb
  have husp : (t.setReg .sp (t.reg .sp - 2)).reg .sp = s.reg .sp := by
    rw [reg_setReg_same hwf', htsp, BitVec.add_sub_cancel]
  refine ⟨t, t.setReg .sp (t.reg .sp - 2), ht, ?pops, htsp, (congrArg t.word hpop).trans hword, husp, ?frame⟩
  case pops => rw [pop_eq, hpop, if_neg htop, hword]
  case frame =>
    have hall : SameBytesExcept (regCells .sp ++ cells s.pushAddr) s (t.setReg .sp (t.reg .sp - 2)) :=
      (hframe.append (sameBytes_setReg t .sp _)).mono (by grind)
    exact hall.of_reg_eq husp

/-- Settles O32: `P IP` pops the word that `i` pushed. -/
theorem interruptReturnRestores : Obligations.InterruptReturnRestores := by
  intro s n h hinv htop hsp hsb hip
  obtain ⟨t, ht, -, -, hsaved, htsp, hframe, -⟩ := softwareInterruptEntersTheHandler s n h hinv.1 htop
  have htsb : t.reg .sb = s.reg .sb := hframe.reg_eq fun x hx => by
    simp only [List.mem_append, not_or]
    exact ⟨⟨fun hx' => hsb x hx' hx, regAddr_apart (by decide) x hx⟩, regAddr_apart (by decide) x hx⟩
  have hpop := popAddr_of_pushed (htsp hsp) htsb
  obtain ⟨u, hu, -, hword, husp, -, -, hframe', -⟩ :=
    popMovesTheTopOfStack t 0x000E (exec_inv hinv ht) (hpop ▸ htop) (by decide)
  rw [hpop] at hword
  rw [show cells 0x000E = regCells .ip from rfl] at hframe'
  have hrestored : u.reg .sp = s.reg .sp := by
    rw [husp (regAddr_apart (r := .ip) (by decide)), htsp hsp, BitVec.add_sub_cancel]
  refine ⟨t, u, ht, hu, (hword hip).trans (hsaved hip), hrestored, ?frame⟩
  case frame =>
    have hall : SameBytesExcept (regCells .sp ++ (cells s.pushAddr ++ regCells .ip)) s u :=
      (hframe.append hframe').mono (by grind)
    exact hall.of_reg_eq hrestored

/-! ## The stack as a list -/

/-- The address of stack word `k`, counted from 1, below the base `sb`. -/
abbrev stackAddr (sb : Word) (k : Nat) : Word := sb - BitVec.ofNat 16 (2 * k)

/-- Two stack words share no byte, the word at the base (`j = 0`) among them. -/
theorem stackAddr_apart (sb : Word) {j k : Nat} (hjk : j < k) (hk : 2 * k < 65536) :
    apart (stackAddr sb j) (stackAddr sb k) := by
  have hj : (BitVec.ofNat 16 (2 * j)).toNat = 2 * j := Nat.mod_eq_of_lt (by omega)
  have hk' : (BitVec.ofNat 16 (2 * k)).toNat = 2 * k := Nat.mod_eq_of_lt (by omega)
  have hsb := sb.isLt
  refine apart_iff.mpr ⟨fun h => ?_, fun h => ?_, fun h => ?_⟩ <;> replace h := congrArg BitVec.toNat h <;>
    simp only [BitVec.toNat_add, BitVec.toNat_sub, hj, hk', show (1 : Word).toNat = 1 from rfl] at h <;> omega

/-- With SP at `2 k`, a push stores stack word `k + 1`. -/
theorem pushAddr_eq_stackAddr {s : State} {k : Nat} (hsp : s.reg .sp = BitVec.ofNat 16 (2 * k)) :
    s.pushAddr = stackAddr (s.reg .sb) (k + 1) := by
  rw [State.pushAddr, hsp, stackAddr, Nat.mul_add, BitVec.ofNat_add]; rfl

/-- Pushing one word more. -/
theorem pushAll_concat {t u : State} {v : Word} (hv : push t v = .ok u) :
    ∀ {vs : List Word} {s : State}, pushAll s vs = .ok t → pushAll s (vs ++ [v]) = .ok u
  | [], s, h => by cases h; simp only [List.nil_append, pushAll, hv]
  | w :: ws, s, h => by
    cases hw : push s w with
    | ok s' =>
      simp only [pushAll, hw, List.cons_append] at h ⊢
      exact pushAll_concat hv h
    | error r => simp only [pushAll, hw, reduceCtorEq] at h

/-- What `k` pushes from the base `sb` leave: SP, SB, the words, and every byte outside them (R146 laws 3 and 4). -/
structure HoldsStack (base : Word) (vs : List Word) (s t : State) : Prop where
  wf : t.mem.wf = true
  sp : t.reg .sp = BitVec.ofNat 16 (2 * vs.length)
  sb : t.reg .sb = base
  words : ∀ j (hj : j < vs.length), t.word (stackAddr base (j + 1)) = vs[j]
  frame : SameBytesExcept (regCells .sp ++ (List.range vs.length).flatMap fun j => cells (stackAddr base (j + 1))) s t

/-- The premises on the first `n` stack words below `base`: none at the top of memory, and none covers SP or SB. -/
def StackClear (base : Word) (n : Nat) : Prop :=
  ∀ j < n, stackAddr base (j + 1) ≠ 0xFFFF ∧ apartReg (stackAddr base (j + 1)) .sp ∧ apartReg (stackAddr base (j + 1)) .sb

/-- One push more. -/
theorem HoldsStack.push {base : Word} {vs : List Word} {s t : State} (h : HoldsStack base vs s t)
    (hfits : 2 * (vs.length + 1) < 65536) (hclear : StackClear base (vs.length + 1)) (v : Word) :
    ∃ u, push t v = .ok u ∧ HoldsStack base (vs ++ [v]) s u := by
  obtain ⟨htop, hsp, hsb⟩ := hclear vs.length (Nat.lt_succ_self _)
  have haddr : t.pushAddr = stackAddr base (vs.length + 1) := h.sb ▸ pushAddr_eq_stackAddr h.sp
  obtain ⟨u, hu, hwf, hword, husp, husb, hframe⟩ := push_ok h.wf (haddr ▸ htop) (haddr ▸ hsp) (haddr ▸ hsb) v
  rw [haddr] at hword hframe
  refine ⟨u, hu, hwf, ?sp, husb.trans h.sb, fun j hj => ?words, ?frame⟩
  case sp => rw [husp, h.sp, List.length_append, List.length_singleton, Nat.mul_add, BitVec.ofNat_add]; rfl
  case words =>
    rw [List.length_append, List.length_singleton] at hj
    obtain hlt | rfl := Nat.lt_succ_iff_lt_or_eq.mp hj
    · rw [List.getElem_append_left hlt, ← h.words j hlt]
      refine hframe.word_eq fun x hx hx' => ?_
      obtain hx' | hx' := List.mem_append.mp hx'
      · exact stackAddr_apart base (Nat.succ_lt_succ hlt) hfits x hx hx'
      · exact (hclear j hj).2.1 x hx hx'
    · rw [List.getElem_concat_length rfl]
      exact hword
  case frame =>
    rw [List.length_append, List.length_singleton, List.range_succ, List.flatMap_append, List.flatMap_singleton]
    exact (h.frame.append hframe).mono (by grind)

/-- From SP = 0 every list of words that fits is pushed, one push after another. -/
theorem exists_holdsStack {s : State} (hwf : s.mem.wf = true) (hsp : s.reg .sp = 0) (vs : List Word)
    (hfits : 2 * vs.length < 65536) (hclear : StackClear (s.reg .sb) vs.length) :
    ∃ t, pushAll s vs = .ok t ∧ HoldsStack (s.reg .sb) vs s t := by
  induction vs using List.reverseRecOn with
  | nil => exact ⟨s, rfl, hwf, hsp, rfl, fun j hj => absurd hj (Nat.not_lt_zero j), SameBytesExcept.refl _ s⟩
  | append_singleton vs v ih =>
    rw [List.length_append, List.length_singleton] at hfits hclear
    obtain ⟨t, ht, hstack⟩ := ih (by omega) fun j hj => hclear j (Nat.lt_succ_of_lt hj)
    obtain ⟨u, hu, hstack'⟩ := hstack.push hfits hclear v
    exact ⟨u, pushAll_concat hu ht, hstack'⟩

/-- Settles O33: by induction on the list from its end, one push a word; the word at SB is stack word 0, apart from the others. -/
theorem stackHoldsThePushedWords : Obligations.StackHoldsThePushedWords := by
  intro s vs hwf hsp hfits hclear
  obtain ⟨t, ht, hstack⟩ := exists_holdsStack hwf hsp vs hfits hclear
  refine ⟨t, ht, hstack.sp, hstack.sb, hstack.words, fun hbase => ?base, hstack.frame⟩
  case base =>
    refine hstack.frame.word_eq fun x hx hx' => ?_
    obtain hx' | hx' := List.mem_append.mp hx'
    · exact hbase x hx hx'
    · obtain ⟨j, hj, hxj⟩ := List.mem_flatMap.mp hx'
      have hapart := stackAddr_apart (s.reg .sb) (Nat.succ_pos j) (by have := List.mem_range.mp hj; omega)
      rw [stackAddr, Nat.mul_zero, BitVec.sub_zero] at hapart
      exact hapart x hx hxj

end Sys2Proof.Machine
end

section
/-! Placing an instruction where the next step fetches it, and the CPU's turn that runs it (spec/30_encoding.md section 4). -/

namespace Sys2Proof.Machine

/-! ## The CPU's turn -/

theorem fetch_of_decode {s : State} {i : Instr} {rest : List Byte} (h : decode (fetchBytes s) = .ok (i, rest)) :
    fetch s = .ok i := by rw [fetch, h]

/-- On the CPU's turn, the step is exec of what is fetched; the state with the turn taken off fetches as the one before it. -/
theorem step_of_fetch {s : State} {i : Instr} (hrun : s.status = .running) (hcpu : (takeTurn s).1 = .cpu)
    (h : fetch s = .ok i) : step s = exec i (takeTurn s).2 := by
  rw [step_of_running hrun, hcpu]
  exact cycle_of_fetch ((fetch_of_mem (takeTurn_mem s)).trans h)

/-- Settles O8: by the first turn of the schedule. -/
theorem stepRunsTheDecodedInstruction : Obligations.StepRunsTheDecodedInstruction := by
  intro s i rest hrun h
  have hfetch := fetch_of_decode h
  have hfetch' : ∀ turns, fetch { s with schedule := turns } = .ok i := fun turns => (fetch_of_mem rfl).trans hfetch
  refine ⟨fun hsched => ?empty, fun turns hsched => ?cpu, fun p key turns hsched hk => ?withKey⟩
  case empty => simpa only [takeTurn, hsched] using step_of_fetch hrun (by rw [takeTurn, hsched]) hfetch
  case cpu => rw [step_of_schedule hrun hsched]; exact cycle_of_fetch (hfetch' turns)
  case withKey =>
    rw [step_of_schedule hrun hsched]
    exact (cycleWithKey_of_not_enabled (s := { s with schedule := turns }) hk).trans (cycle_of_fetch (hfetch' turns))

/-! ## Bytes stored in a row -/

/-- Storing bytes leaves an address that is none of theirs alone. -/
theorem byte_storeBytes_other : ∀ (bs : List Byte) {s : State} {a c : Word},
    (∀ k < bs.length, c ≠ a + BitVec.ofNat 16 k) → (storeBytes s a bs).byte c = s.byte c
  | [], _, _, _, _ => rfl
  | v :: vs, s, a, c, h => by
    have hhead : c ≠ a := by simpa using h 0 (Nat.succ_pos _)
    have htail : ∀ k < vs.length, c ≠ a + 1 + BitVec.ofNat 16 k := fun k hk => by
      have hnext := h (k + 1) (Nat.succ_lt_succ hk)
      rwa [Nat.add_comm k 1, BitVec.ofNat_add, ← BitVec.add_assoc] at hnext
    exact (byte_storeBytes_other vs htail).trans (byte_setByte_other hhead)

/-- Byte `k` of the bytes stored from `a` up stands at `a + k`. -/
theorem byte_storeBytes : ∀ (bs : List Byte) {s : State} (a : Word), s.mem.wf = true → bs.length ≤ 65536 →
    ∀ {k : Nat} {b : Byte}, bs[k]? = some b → (storeBytes s a bs).byte (a + BitVec.ofNat 16 k) = b
  | [], _, _, _, _, k, b, hk => by simp at hk
  | v :: vs, s, a, hwf, hlen, 0, b, hk => by
    have hothers : ∀ k < vs.length, a ≠ a + 1 + BitVec.ofNat 16 k := fun k hk h => by
      rw [List.length_cons] at hlen
      have hk' : (BitVec.ofNat 16 k).toNat = k := Nat.mod_eq_of_lt (by omega)
      replace h := congrArg BitVec.toNat h
      rw [BitVec.toNat_add, BitVec.toNat_add, hk', show (1 : Word).toNat = 1 from rfl] at h
      have := a.isLt
      omega
    cases hk
    rw [BitVec.add_zero]
    exact (byte_storeBytes_other vs hothers).trans (byte_setByte_same hwf a v)
  | v :: vs, s, a, hwf, hlen, k + 1, b, hk => by
    rw [Nat.add_comm k 1, BitVec.ofNat_add, ← BitVec.add_assoc]
    exact byte_storeBytes vs (a + 1) (wf_setByte hwf a v) (Nat.le_of_succ_le hlen) hk

theorem storeBytes_status : ∀ (bs : List Byte) (s : State) (a : Word), (storeBytes s a bs).status = s.status
  | [], _, _ => rfl
  | v :: vs, s, a => storeBytes_status vs (s.setByte a v) (a + 1)

theorem storeBytes_schedule : ∀ (bs : List Byte) (s : State) (a : Word), (storeBytes s a bs).schedule = s.schedule
  | [], _, _ => rfl
  | v :: vs, s, a => storeBytes_schedule vs (s.setByte a v) (a + 1)

/-! ## The placed instruction -/

theorem reg_moveIp {s : State} (hwf : s.mem.wf = true) (a : Word) : (moveIp s a).reg .ip = a := by
  unfold moveIp
  split
  · assumption
  · exact reg_setReg_same hwf .ip a

theorem wf_moveIp {s : State} (hwf : s.mem.wf = true) (a : Word) : (moveIp s a).mem.wf = true := by
  unfold moveIp
  split
  · exact hwf
  · exact wf_setReg hwf .ip a

theorem moveIp_status (s : State) (a : Word) : (moveIp s a).status = s.status := by unfold moveIp; split <;> rfl

theorem moveIp_schedule (s : State) (a : Word) : (moveIp s a).schedule = s.schedule := by unfold moveIp; split <;> rfl

/-- Seven bytes from the chosen address on end below the top of memory and do not cover the IP cell. -/
theorem fetchSite_range (s : State) : (fetchSite s).toNat ≤ 7 ∨ (16 ≤ (fetchSite s).toNat ∧ (fetchSite s).toNat ≤ 0xFFF9) := by
  unfold fetchSite
  by_cases h : (s.reg .ip).toNat ≤ 0x0007 ∨ (0x0010 ≤ (s.reg .ip).toNat ∧ (s.reg .ip).toNat ≤ 0xFFF9)
  · rw [if_pos h]; exact h
  · rw [if_neg h]; decide

theorem ip_not_in_fetchSite (s : State) {c : Word} (hc : c ∈ regCells .ip) {k : Nat} (hk : k < 7) :
    c ≠ fetchSite s + BitVec.ofNat 16 k := by
  have hsite := fetchSite_range s
  have hk' : (BitVec.ofNat 16 k).toNat = k := Nat.mod_eq_of_lt (by omega)
  have hc' : c.toNat = 14 ∨ c.toNat = 15 := (mem_cells.mp hc).imp (congrArg BitVec.toNat) (congrArg BitVec.toNat)
  intro h
  replace h := congrArg BitVec.toNat h
  rw [BitVec.toNat_add, hk'] at h
  omega

/-- The state in which the instruction's bytes are placed: Running, the CPU's turn next, IP where the bytes go. -/
def readyToPlace (s : State) : State :=
  moveIp { s with status := .running, schedule := cpuFirst s.schedule } (fetchSite s)

theorem State.withFetchWord_eq (s : State) (nbits w : Nat) :
    s.withFetchWord nbits w = storeBytes (readyToPlace s) (fetchSite s) (tableBytes nbits w) := rfl

/-- The placed bytes, in the order of their places. -/
theorem getElem?_tableBytes (nbits w : Nat) {k : Nat} (hk : k < 7) :
    (tableBytes nbits w)[k]? = some (BitVec.ofNat 8 ((w % 2 ^ nbits) >>> (8 * k))) := by
  rw [tableBytes, show [0, 1, 2, 3, 4, 5, 6] = List.range 7 from rfl, List.getElem?_map, List.getElem?_range hk]
  rfl

section

variable {s : State} (nbits w : Nat)

theorem status_withFetchWord : (s.withFetchWord nbits w).status = .running :=
  (storeBytes_status _ _ _).trans (moveIp_status _ _)

/-- The next turn is the CPU's. -/
theorem takeTurn_withFetchWord : (takeTurn (s.withFetchWord nbits w)).1 = .cpu := by
  have hsched : (s.withFetchWord nbits w).schedule = cpuFirst s.schedule :=
    (storeBytes_schedule _ _ _).trans (moveIp_schedule _ _)
  rw [takeTurn, hsched]
  rcases s.schedule with _ | ⟨_ | _ | _ | _, _⟩ <;> rfl

variable (hwf : s.mem.wf = true)
include hwf

theorem wf_readyToPlace : (readyToPlace s).mem.wf = true :=
  wf_moveIp (s := { s with status := .running, schedule := cpuFirst s.schedule }) hwf _

theorem ip_withFetchWord : (s.withFetchWord nbits w).reg .ip = fetchSite s := by
  have hkept : (s.withFetchWord nbits w).reg .ip = (readyToPlace s).reg .ip :=
    word_congr fun c hc => byte_storeBytes_other _ fun k hk => ip_not_in_fetchSite s hc (by simpa [tableBytes] using hk)
  exact hkept.trans (reg_moveIp (s := { s with status := .running, schedule := cpuFirst s.schedule }) hwf _)

/-- The fetch reads the placed bytes. -/
theorem fetchBytes_withFetchWord : fetchBytes (s.withFetchWord nbits w) = tableBytes nbits w := by
  have hip := ip_withFetchWord nbits w hwf
  have hsite := fetchSite_range s
  have hlen : (tableBytes nbits w).length ≤ 65536 := by simp [tableBytes]
  rw [fetchBytes_of_fits (by rw [hip]; omega), hip]
  refine List.map_congr_left fun k hk => ?_
  have hk' : k < 7 := List.mem_range.mp (show k ∈ List.range 7 from hk)
  rw [State.withFetchWord_eq]
  exact byte_storeBytes _ _ (wf_readyToPlace hwf) hlen (getElem?_tableBytes nbits w hk')

end

theorem decode_of_decodeTableWord {nbits w : Nat} {i : Instr} (h : decodeTableWord nbits w = some i) :
    ∃ rest, decode (tableBytes nbits w) = .ok (i, rest) := by
  unfold decodeTableWord at h
  split at h <;> cases h
  exact ⟨_, ‹_›⟩

/-- Settles O9: the placed bytes are what the next step, a cycle of the CPU, fetches. -/
theorem fetchWordIsRunByTheNextStep : Obligations.FetchWordIsRunByTheNextStep := by
  intro s nbits w i hwf hword
  obtain ⟨rest, hdecode⟩ := decode_of_decodeTableWord hword
  have hfetch : fetch (s.withFetchWord nbits w) = .ok i :=
    fetch_of_decode (by rw [fetchBytes_withFetchWord nbits w hwf, hdecode])
  exact ⟨hfetch, step_of_fetch (status_withFetchWord nbits w) (takeTurn_withFetchWord nbits w) hfetch⟩

end Sys2Proof.Machine
end

section
/-! The agents' requests across steps (spec/60_exceptions.md sections 3 and 4): an armed request outlives any wait and a cleared IE,
and deliveries in a row nest. -/

namespace Sys2Proof.Machine

/-! ## Delivery -/

section

variable {s : State} (hwf : s.mem.wf = true) (htop : s.pushAddr ≠ 0xFFFF)
include hwf htop

/-- R177, R179: an armed Timer enters `INT0`, whatever IE is. -/
theorem timer_enters_handler (harmed : s.timerReq = .armed) :
    ∃ t, raise s 0 = .ok t ∧ timerTurn s = .next { t with timerReq := .idle } ∧ t.reg .ip = s.reg (.int 0) := by
  obtain ⟨t, ht, hip, -⟩ := raiseEntersTheHandler s 0 hwf htop
  exact ⟨t, ht, timerTurn_of_raised harmed ht, hip⟩

/-- R178, R179: a latched Keyboard enters `INT1`, whatever IE is. -/
theorem keyboard_enters_handler (hlatched : s.kbdReq = .latched) (input : Option Byte) :
    ∃ t, raise s 1 = .ok t ∧ keyboardTurn input s = .next { t with kbdReq := .idle } ∧ t.reg .ip = s.reg (.int 1) := by
  obtain ⟨t, ht, hip, -⟩ := raiseEntersTheHandler s 1 hwf htop
  exact ⟨t, ht, keyboardTurn_of_raised hlatched ht input, hip⟩

end

/-! ## Any wait between the IE test and the delivery -/

/-- A property that every turn of `waiting` keeps holds after them, with the turns taken off the schedule. -/
theorem run_keeps {P : State → Prop} {ok : Turn → Prop}
    (keeps : ∀ {turn u v}, ok turn → P u → runTurn turn u = .next v → P v)
    (takes : ∀ {u : State} turns, P u → P { u with schedule := turns }) {rest : List Turn} {t : State} :
    ∀ (waiting : List Turn) {s : State}, (∀ turn ∈ waiting, ok turn) → P s → s.schedule = waiting ++ rest →
      Host.Core.run core waiting.length s = .next t → P t ∧ t.schedule = rest
  | [], s, _, hs, hsched, hrun => by cases hrun; exact ⟨hs, hsched⟩
  | turn :: waiting, s, hok, hs, hsched, hrun => by
    obtain ⟨u, hu⟩ := exists_step_of_run_succ (M := core) hrun
    have hrest : Host.Core.run core waiting.length u = .next t := by
      simpa only [List.length_cons, Host.Core.run, hu] using hrun
    rw [show core.step s = step s from rfl, step_of_schedule (running_of_step hu) hsched] at hu
    exact run_keeps keeps takes waiting (fun x hx => hok x (List.mem_cons_of_mem _ hx))
      (keeps (hok turn List.mem_cons_self) (takes _ hs) hu) (runTurn_schedule hu) hrest

/-- Settles O58: each turn of the wait keeps the invariant and the other agent's request, and the delivery tests no flag. -/
theorem armedRequestOutlivesAnyWait : Obligations.ArmedRequestOutlivesAnyWait := by
  intro s t waiting rest hinv hsched _ hrun ht
  refine ⟨fun harmed hwait => ?timer, fun hlatched hwait => ?keyboard⟩
  case timer =>
    obtain ⟨⟨hinv', harmed'⟩, hrest⟩ := run_keeps (P := fun u => u.Inv ∧ u.timerReq = .armed) (ok := (· ≠ .timer))
      (fun hok hu h => ⟨runTurn_inv hu.1 h, (runTurn_timerReq hok h).trans hu.2⟩) (fun _ hu => hu) waiting
      (fun turn hmem e => hwait (e ▸ hmem)) ⟨hinv, harmed⟩ hsched hrun
    refine ⟨harmed', fun turns e hpush => ?_⟩
    obtain ⟨u, -, hu, hip⟩ := timer_enters_handler (s := { t with schedule := turns }) hinv'.1 hpush harmed'
    exact ⟨_, (step_of_schedule ht (hrest.trans e)).trans hu, hip, rfl⟩
  case keyboard =>
    obtain ⟨⟨hinv', hlatched'⟩, hrest⟩ := run_keeps (P := fun u => u.Inv ∧ u.kbdReq = .latched)
      (ok := fun turn => ∀ input, turn ≠ .keyboard input)
      (fun hok hu h => ⟨runTurn_inv hu.1 h, (runTurn_kbdReq hok (by simp [hu.2]) h).trans hu.2⟩) (fun _ hu => hu) waiting
      (fun turn hmem input e => hwait input (e ▸ hmem)) ⟨hinv, hlatched⟩ hsched hrun
    refine ⟨hlatched', fun input turns e hpush => ?_⟩
    obtain ⟨u, -, hu, hip⟩ := keyboard_enters_handler (s := { t with schedule := turns }) hinv'.1 hpush hlatched' input
    exact ⟨_, (step_of_schedule ht (hrest.trans e)).trans hu, hip, rfl⟩

/-! ## A cleared IE -/

/-- The push address depends on SB and SP alone. -/
theorem pushAddr_congr {s t : State} (hsb : t.reg .sb = s.reg .sb) (hsp : t.reg .sp = s.reg .sp) :
    t.pushAddr = s.pushAddr := by
  rw [State.pushAddr, State.pushAddr, hsb, hsp]

/-- With FL zero IE is clear (R25). -/
theorem interruptEnable_of_fl_zero {s : State} (h : s.reg .fl = 0) : s.interruptEnable = false := by
  rw [State.interruptEnable, h]; rfl

/-- Settles O49: the store to FL leaves SP, SB, the vectors and the request alone, and the delivery tests no flag. -/
theorem armedTimerOutlivesClearedIe : Obligations.ArmedTimerOutlivesClearedIe := by
  intro s hwf harmed htop
  obtain ⟨t, ht, hfl, hip, -, hframe, hcontrol⟩ := storeImmediateWritesTheLiteral s 0x000C 0 hwf (by decide)
  have kept : ∀ {r : Reg}, r ≠ .fl → r ≠ .ip → t.reg r = s.reg r := fun hne hne' => hframe.reg_eq fun x hx => by
    rw [List.mem_append, not_or]
    exact ⟨regAddr_apart hne x hx, regAddr_apart hne' x hx⟩
  have hpush : t.pushAddr = s.pushAddr := pushAddr_congr (kept (by decide) (by decide)) (kept (by decide) (by decide))
  have harmed' : t.timerReq = .armed := hcontrol.2.1.trans harmed
  obtain ⟨u, hu, hturn, huip⟩ := timer_enters_handler (exec_wf ht hwf) (hpush ▸ htop) harmed'
  obtain ⟨u', hu', -, hsaved, -⟩ := raiseEntersTheHandler t 0 (exec_wf ht hwf) (hpush ▸ htop)
  cases hu.symm.trans hu'
  rw [hpush] at hsaved
  exact ⟨t, _, ht, interruptEnable_of_fl_zero hfl, harmed', hturn, huip.trans (kept (by decide) (by decide)), rfl,
    fun ha => (hsaved ha).trans (hip (regAddr_apart (r := .fl) (by decide)))⟩

/-! ## Deliveries in a row -/

/-- A stack word that a delivery can use: below the top of memory, and apart from the registers that deliveries use. -/
def DeliverySafe (a : Word) : Prop :=
  a ≠ 0xFFFF ∧ ∀ r ∈ [Reg.sp, Reg.sb, Reg.fl, Reg.ip, Reg.int 0, Reg.int 1], apartReg a r

/-- The entry into an interrupt leaves alone every register but IP and SP that the stack word does not cover. -/
theorem raise_reg_eq {s t : State} {r : Reg}
    (hframe : SameBytesExcept (cells s.pushAddr ++ regCells .ip ++ regCells .sp) s t) (hr : apartReg s.pushAddr r)
    (hip : r ≠ .ip) (hsp : r ≠ .sp) : t.reg r = s.reg r := hframe.reg_eq fun x hx => by
  simp only [List.mem_append, not_or]
  exact ⟨⟨fun hx' => hr x hx' hx, regAddr_apart hip x hx⟩, regAddr_apart hsp x hx⟩

/-- Two words two addresses apart share no byte. -/
theorem apart_sub_two (a : Word) : apart a (a - 2) := by
  have h := stackAddr_apart a (j := 0) (k := 1) (by decide) (by decide)
  rwa [stackAddr, Nat.mul_zero, BitVec.sub_zero] at h

/-- Two entries in a row: the second saves the address of the first one's handler (R181). -/
theorem raise_twice {s t s' : State} {v w : Fin 4} (hwf : s.mem.wf = true) (hsafe : DeliverySafe s.pushAddr)
    (hsafe' : DeliverySafe (s.pushAddr - 2)) (hw : w = 0 ∨ w = 1) (ht : raise s v = .ok t) (hmem : s'.mem = t.mem) :
    ∃ u, raise s' w = .ok u ∧ SameControl s' u ∧ u.word s.pushAddr = s.reg .ip ∧
      u.word (s.pushAddr - 2) = s.reg (.int v) ∧ u.reg .ip = s.reg (.int w) ∧ u.reg .sp = s.reg .sp + 4 ∧
      u.reg .fl = s.reg .fl := by
  obtain ⟨htop, hregs⟩ := hsafe
  obtain ⟨htop', hregs'⟩ := hsafe'
  have hint : Reg.int w ∈ [Reg.sp, .sb, .fl, .ip, .int 0, .int 1] := by obtain rfl | rfl := hw <;> decide
  obtain ⟨t', ht', hip, hsaved, hsp, hfl, hframe, -⟩ := raiseEntersTheHandler s v hwf htop
  cases ht.symm.trans ht'
  have hwf' : s'.mem.wf = true := by
    obtain ⟨_, hws⟩ := exists_raise_stores ht
    exact hmem ▸ hws.wf hwf
  have hpush : s'.pushAddr = s.pushAddr - 2 := by
    rw [State.pushAddr, reg_of_mem hmem, reg_of_mem hmem, hsp (hregs _ (by decide)),
      raise_reg_eq hframe (hregs _ (by decide)) (by decide) (by decide), State.pushAddr]
    bv_omega
  obtain ⟨u, hu, huip, husaved, husp, hufl, huframe, hucontrol⟩ := raiseEntersTheHandler s' w hwf' (hpush ▸ htop')
  rw [hpush] at husaved husp hufl huframe
  refine ⟨u, hu, hucontrol, ?first, ?second, ?ip, ?sp, ?fl⟩
  case first =>
    rw [huframe.word_eq, word_of_mem hmem, hsaved (hregs _ (by decide))]
    intro x hx
    simp only [List.mem_append, not_or]
    exact ⟨⟨apart_sub_two _ x hx, hregs .ip (by decide) x hx⟩, hregs .sp (by decide) x hx⟩
  case second => rw [husaved (hregs' _ (by decide)), reg_of_mem hmem, hip]
  case ip => rw [huip, reg_of_mem hmem, raise_reg_eq hframe (hregs _ hint) (by simp) (by simp)]
  case sp => rw [husp (hregs' _ (by decide)), reg_of_mem hmem, hsp (hregs _ (by decide)), BitVec.add_assoc]; rfl
  case fl => rw [hufl (hregs' _ (by decide)), reg_of_mem hmem, hfl (hregs _ (by decide))]

/-- A run of two steps. -/
theorem run_two {s t u : State} (ht : step s = .next t) (hu : step t = .next u) : Host.Core.run core 2 s = .next u := by
  have hone : Host.Core.run core 1 t = .next u := by
    simp only [Host.Core.run, show core.step t = .next u from hu]
  simpa only [Host.Core.run, show core.step s = .next t from ht] using hone

/-- Settles O50: each order is two entries in a row, of the two vectors in that order. -/
theorem deliveriesInARowNest : Obligations.DeliveriesInARowNest := by
  intro s input turns hwf hrun harmed hlatched hsafe
  have hsafe1 : DeliverySafe s.pushAddr := hsafe _ (by simp)
  have hsafe2 : DeliverySafe (s.pushAddr - 2) := hsafe _ (by simp)
  refine ⟨fun hsched => ?timerFirst, fun hsched => ?keyboardFirst⟩
  case timerFirst =>
    obtain ⟨t, ht, -, -, -, -, -, hstatus, -, hkbd, hturns, -⟩ :=
      raiseEntersTheHandler { s with schedule := .keyboard input :: turns } 0 hwf hsafe1.1
    obtain ⟨u, hu, ⟨-, htimer, -⟩, hfacts⟩ := raise_twice (w := 1)
      (s := { s with schedule := .keyboard input :: turns }) (s' := { t with timerReq := .idle, schedule := turns })
      hwf hsafe1 hsafe2 (.inr rfl) ht rfl
    obtain ⟨holdIp, hfirstHandler, hip, hsp, hfl⟩ := hfacts
    have hfirst : step s = .next { t with timerReq := .idle } := (step_of_schedule hrun hsched).trans
      (timerTurn_of_raised (s := { s with schedule := .keyboard input :: turns }) harmed ht)
    have hsecond : step { t with timerReq := .idle } = .next { u with kbdReq := .idle } :=
      (step_of_schedule (s := { t with timerReq := .idle }) (hstatus.trans hrun) hturns).trans
        (keyboardTurn_of_raised (s := { t with timerReq := .idle, schedule := turns }) (hkbd.trans hlatched) hu input)
    exact ⟨_, run_two hfirst hsecond, holdIp, hfirstHandler, hip, hsp, hfl, htimer, rfl⟩
  case keyboardFirst =>
    obtain ⟨t, ht, -, -, -, -, -, hstatus, htimer, -, hturns, -⟩ :=
      raiseEntersTheHandler { s with schedule := .timer :: turns } 1 hwf hsafe1.1
    obtain ⟨u, hu, ⟨-, -, hkbd, -⟩, hfacts⟩ := raise_twice (w := 0)
      (s := { s with schedule := .timer :: turns }) (s' := { t with kbdReq := .idle, schedule := turns })
      hwf hsafe1 hsafe2 (.inl rfl) ht rfl
    obtain ⟨holdIp, hfirstHandler, hip, hsp, hfl⟩ := hfacts
    have hfirst : step s = .next { t with kbdReq := .idle } := (step_of_schedule hrun hsched).trans
      (keyboardTurn_of_raised (s := { s with schedule := .timer :: turns }) hlatched ht input)
    have hsecond : step { t with kbdReq := .idle } = .next { u with timerReq := .idle } :=
      (step_of_schedule (s := { t with kbdReq := .idle }) (hstatus.trans hrun) hturns).trans
        (timerTurn_of_raised (s := { t with kbdReq := .idle, schedule := turns }) (htimer.trans harmed) hu)
    exact ⟨_, run_two hfirst hsecond, holdIp, hfirstHandler, hip, hsp, hfl, rfl, hkbd⟩

end Sys2Proof.Machine
end

section
/-! A key store that overlaps a cycle (spec/20_memory.md section 6, spec/93_implementation_defined.md U9;
notes/assumptions/4.md): where in each instruction it lands, and what is left of it in a fault. -/

namespace Sys2Proof.Machine

/-! ## A pending key, and a key that has landed -/

/-- `s` with the key store `k` pending, or none. -/
def State.pend (s : State) (k : Option (KeyPoint × Byte)) : State := { s with overlapKey := k }

/-- `s` after the pending key has landed. -/
def State.landed (s : State) (key : Byte) : State := { s.storeKey key with overlapKey := none }

theorem State.pend_none {s : State} (h : s.overlapKey = none) : s.pend none = s := by
  rw [State.pend, ← h]

theorem State.pend_some {s : State} {k : KeyPoint × Byte} (h : s.overlapKey = some k) : s.pend (some k) = s := by
  rw [State.pend, ← h]

/-- With nothing pending, a key that has landed is what a poll stores (R178). -/
theorem State.landed_eq_kbdPoll {s : State} (h : s.overlapKey = none) (key : Byte) : s.landed key = kbdPoll (some key) s :=
  State.pend_none (s := s.storeKey key) h

theorem State.landed_kb {s : State} (hwf : s.mem.wf = true) (key : Byte) : (s.landed key).kb = key :=
  byte_setByte_same hwf kbAddr key

theorem sameBytes_landed (s : State) (key : Byte) : SameBytesExcept [kbAddr] s (s.landed key) := sameBytes_storeKey s key

section

variable {s : State} {p q : KeyPoint} {key : Byte}

theorem State.landKey_pend_same (hk : s.kbdReq = .enabled) : (s.pend (some (p, key))).landKey p = s.landed key :=
  State.landKey_of_some rfl hk

theorem State.landKey_pend_ne (hq : q ≠ p) : (s.pend (some (q, key))).landKey p = s.pend (some (q, key)) :=
  State.landKey_of_ne rfl hq

theorem State.landKey_landed : (s.landed key).landKey p = s.landed key := State.landKey_of_none rfl

theorem withKey_afterFetch (hk : s.kbdReq = .enabled) : withKey .afterFetch key s = s.landed key :=
  State.landKey_pend_same hk

theorem withKey_of_ne (hp : p ≠ .afterFetch) : withKey p key s = s.pend (some (p, key)) := State.landKey_pend_ne hp

/-- A turn of the CPU with a key, while the Keyboard polls and the fetch answers. -/
theorem step_withKey {t : State} {turns : List Turn} {i : Instr} (hrun : s.status = .running)
    (hsched : s.schedule = .cpuWithKey p key :: turns) (hk : s.kbdReq = .enabled) (hf : fetch s = .ok i)
    (h : exec i (withKey p key { s with schedule := turns }) = .next t) : step s = .next (settleKey t) :=
  (step_of_schedule hrun hsched).trans
    (cycleWithKey_of_fetch (s := { s with schedule := turns }) hk ((fetch_of_mem rfl).trans hf) h)

/-- With nothing pending there is nothing to settle. -/
theorem settleKey_of_none (h : s.overlapKey = none) : settleKey s = s := by
  obtain ⟨-, e⟩ | ⟨-, e⟩ := settleKey_cases s <;> rw [e]
  · obtain e' | ⟨_, _, h', -⟩ := s.landPending_cases
    · rw [e']; exact State.pend_none h
    · rw [h] at h'; cases h'
  · exact State.pend_none h

/-- After the end of a run a pending key is dropped (R174). -/
theorem settleKey_of_ended (h : s.status ≠ .running) : settleKey s = s.pend none := by
  obtain ⟨h', -⟩ | ⟨-, e⟩ := settleKey_cases s
  · exact absurd h' h
  · exact e

/-- While the run goes on, a key that is still pending lands. -/
theorem settleKey_pend (h : s.status = .running) (hk : s.kbdReq = .enabled) :
    settleKey (s.pend (some (p, key))) = s.landed key := by
  obtain ⟨-, e⟩ | ⟨h', -⟩ := settleKey_cases (s.pend (some (p, key)))
  · rw [e, State.landPending]
    simp only [State.pend, hk]
    rfl
  · exact absurd h h'

end

/-- Settles O23: after the fetch the key lands, nothing is pending in exec, and nothing is left to settle. -/
theorem overlappingKeyAfterTheFetch : Obligations.OverlappingKeyAfterTheFetch := by
  intro s key turns i ⟨_, hnone⟩ hrun hsched hk hf
  have hkey : withKey .afterFetch key { s with schedule := turns } = kbdPoll (some key) { s with schedule := turns } :=
    (withKey_afterFetch (s := { s with schedule := turns }) hk).trans
      (State.landed_eq_kbdPoll (s := { s with schedule := turns }) hnone key)
  obtain ⟨t, ht⟩ := exec_next i (kbdPoll (some key) { s with schedule := turns })
  have htnone : t.overlapKey = none := exec_overlapKey ht ((kbdPoll_overlapKey _ _).trans hnone)
  rw [step_withKey hrun hsched hk hf (hkey ▸ ht), settleKey_of_none htnone, ht]

/-! ## The points of each instruction -/

/-- A pending key goes through the instruction untouched: no point of its own. -/
def PassesKey (i : Instr) (s : State) : Prop := ∃ t : State, ∀ k, exec i (s.pend k) = .next (t.pend k)

/-- The instruction computes `w` from its reads, and a key may land before the store of `w` at `d`; or it faults before. -/
def LandsBeforeStore (i : Instr) (s : State) (d : Word) : Prop :=
  (∃ r, ∀ k, exec i (s.pend k) = .next ((s.pend k).takeFault r)) ∨
    ∃ (n : State) (w : Word), (∃ ws, Stores ws s n) ∧ ∀ k, exec i (s.pend k) = .next (((n.pend k).landKey .beforeResult).setWord d w)

/-- The three instructions with one read and one store. -/
def isMove (i : Instr) : Bool := [Opcode.copy, .lnot, .pop].contains (instrOpcode i)

theorem isThreeAddress_eq (i : Instr) : isThreeAddress i = (ternaryOp i).isSome := by cases i <;> rfl

theorem hasPoint_betweenSources (i : Instr) : hasPoint .betweenSources i = (ternaryOp i).isSome := isThreeAddress_eq i

theorem hasPoint_beforeResult (i : Instr) : hasPoint .beforeResult i = ((ternaryOp i).isSome || isMove i) := by
  rw [hasPoint, isThreeAddress_eq, isMove]

theorem landsBeforeStore_of_ite {i : Instr} {s n : State} {d w : Word} {r : FaultReason} {ws : List Word} {c : Prop}
    [Decidable c] (hn : Stores ws s n) (h : ∀ k, exec i (s.pend k) =
      .next (if c then (s.pend k).takeFault r else ((n.pend k).landKey .beforeResult).setWord d w)) :
    LandsBeforeStore i s d := by
  by_cases hc : c
  · exact .inl ⟨r, fun k => (h k).trans (by rw [if_pos hc])⟩
  · exact .inr ⟨n, w, ⟨ws, hn⟩, fun k => (h k).trans (by rw [if_neg hc])⟩

/-- `l`, `n` and `P` (R111, R129, R145). -/
theorem landsBeforeStore_of_isMove {i : Instr} (s : State) (h : isMove i = true) :
    ∃ d, storedWords i s = [d] ∧ LandsBeforeStore i s d := by
  have hip := Stores.advance (s := s) (ip_mem_writtenWords i s)
  cases i
  case copy d a =>
    exact ⟨d, rfl, landsBeforeStore_of_ite (n := s.advance 5) (w := (s.advance 5).word a) (hip 5)
      fun k => exec_copy d a (s.pend k)⟩
  case lnot d a =>
    exact ⟨d, rfl, landsBeforeStore_of_ite (n := s.advance 5) (w := notOp ((s.advance 5).word a)) (hip 5)
      fun k => exec_lnot d a (s.pend k)⟩
  case pop d =>
    exact ⟨d, rfl, landsBeforeStore_of_ite (n := (s.advance 3).setReg .sp (s.reg .sp - 2))
      (w := (s.advance 3).word s.popAddr) (c := s.popAddr = 0xFFFF ∨ d = 0xFFFF)
      ((hip 3).setReg (sp_mem_writtenWords rfl s) _) fun k => exec_pop d (s.pend k)⟩
  all_goals cases h

theorem passesKey_of_ite {i : Instr} {s u : State} {r : FaultReason} {c : Prop} [Decidable c]
    (h : ∀ k, exec i (s.pend k) = .next (if c then (s.pend k).takeFault r else u.pend k)) : PassesKey i s := by
  by_cases hc : c
  · exact ⟨s.takeFault r, fun k => (h k).trans (by rw [if_pos hc]; rfl)⟩
  · exact ⟨u, fun k => (h k).trans (by rw [if_neg hc])⟩

/-- The six instructions that read no word before they store. -/
theorem passesKey_of_plain {i : Instr} (s : State) (ht : ternaryOp i = none) (hm : isMove i = false) : PassesKey i s := by
  cases i
  case add | sub | mul | div | mod | or | and | xor => cases ht
  case copy | lnot | pop => cases hm
  case brEq a b t => exact ⟨s.setReg .ip (if a = b then t else s.nextIp 7), fun k => exec_brEq a b t (s.pend k)⟩
  case storeImm d v => exact passesKey_of_ite (u := (s.advance 5).setWord d v) fun k => exec_storeImm d v (s.pend k)
  case int n =>
    by_cases hn : n.toNat < 4
    · exact passesKey_of_ite (c := s.pushAddr = 0xFFFF)
        (u := (((s.advance 2).setReg .sp (s.reg .sp + 2)).setWord s.pushAddr ((s.advance 2).reg .ip)).setReg .ip
          (s.reg (.int ⟨n.toNat, hn⟩))) fun k => (exec_int n (s.pend k)).trans (congrArg _ (dif_pos hn))
    · exact ⟨s.takeFault .invalidVector, fun k => (exec_int n (s.pend k)).trans (congrArg _ (dif_neg hn))⟩
  case push v =>
    exact passesKey_of_ite (u := ((s.advance 3).setReg .sp (s.reg .sp + 2)).setWord s.pushAddr v)
      (c := s.pushAddr = 0xFFFF) fun k => exec_push v (s.pend k)
  case yield => exact ⟨s.advance 1, fun k => exec_yield (s.pend k)⟩
  case halt => exact ⟨{ s.advance 1 with status := .halted }, fun k => exec_halt (s.pend k)⟩

/-- The three-address shape (R120 law 7), with a key pending. -/
theorem exec_ternary_pend {i : Instr} {f : Word → Word → Except FaultReason Word} {d s1 s2 : Word}
    (hi : ternaryOp i = some (f, d, s1, s2)) (s : State) (k : Option (KeyPoint × Byte)) :
    exec i (s.pend k) =
      if d = 0xFFFF ∨ s1 = 0xFFFF ∨ s2 = 0xFFFF then .next ((s.pend k).takeFault .addressOutOfRange)
      else match f ((s.advance 7).word s1) ((((s.advance 7).pend k).landKey .betweenSources).word s2) with
        | .ok r => .next (((((s.advance 7).pend k).landKey .betweenSources).landKey .beforeResult).setWord d r)
        | .error e => .next (((s.pend k).landKey .betweenSources).takeFault e) :=
  (exec_ternary hi (s.pend k)).trans (ternaryShape_eq f d s1 s2 (s.pend k))

/-! ## A cycle without the point -/

/-- A key whose point the instruction lacks is still pending after it. -/
theorem exec_pend_of_no_point {p : KeyPoint} {i : Instr} {s t : State} (key : Byte) (hp : hasPoint p i = false)
    (h : exec i (s.pend none) = .next t) : exec i (s.pend (some (p, key))) = .next (t.pend (some (p, key))) := by
  have plain : PassesKey i s → exec i (s.pend (some (p, key))) = .next (t.pend (some (p, key))) := by
    rintro ⟨u, hu⟩
    cases (hu none).symm.trans h
    exact hu _
  cases p
  case afterFetch => cases hp
  case betweenSources =>
    rw [hasPoint_betweenSources, Option.isSome_eq_false_iff, Option.isNone_iff_eq_none] at hp
    by_cases hm : isMove i = true
    · obtain ⟨d, -, ⟨r, hr⟩ | ⟨n, w, -, hn⟩⟩ := landsBeforeStore_of_isMove s hm
      · cases (hr none).symm.trans h
        exact hr _
      · have hn' := hn none
        rw [State.landKey_of_none (s := n.pend none) rfl] at hn'
        cases hn'.symm.trans h
        rw [hn, State.landKey_pend_ne (by decide)]
        rfl
    · exact plain (passesKey_of_plain s hp (by simpa using hm))
  case beforeResult =>
    rw [hasPoint_beforeResult, Bool.or_eq_false_iff, Option.isSome_eq_false_iff, Option.isNone_iff_eq_none] at hp
    exact plain (passesKey_of_plain s hp.1 hp.2)

/-- Settles O25: the key is still pending after exec, and then lands as a poll does, or is dropped with the end of the run. -/
theorem overlappingKeyIsAPollAfterTheCycle : Obligations.OverlappingKeyIsAPollAfterTheCycle := by
  intro s p key turns i ⟨_, hnone⟩ hrun hsched hk hf hp
  have hpend : ({ s with schedule := turns } : State).pend none = { s with schedule := turns } := State.pend_none hnone
  obtain ⟨t, ht⟩ := exec_next i { s with schedule := turns }
  obtain ⟨-, -, htk, -, htnone, -⟩ := everyInstructionKeepsItsFrame i { s with schedule := turns } t hnone ht
  have hp' : p ≠ .afterFetch := by rintro rfl; cases hp
  have hstep : step s = .next (settleKey (t.pend (some (p, key)))) := by
    refine step_withKey hrun hsched hk hf ?_
    rw [withKey_of_ne hp']
    exact exec_pend_of_no_point key hp (hpend ▸ ht)
  refine ⟨t, ht, fun hgoes => ?goes, fun hended => ?ended⟩
  case goes => rw [hstep, settleKey_pend hgoes (htk.trans hk), State.landed_eq_kbdPoll htnone]
  case ended =>
    rw [hstep, settleKey_of_ended (s := t.pend (some (p, key))) hended]
    exact congrArg _ (State.pend_none htnone)

/-! ## A cycle with the point -/

section

variable {i : Instr} {s t : State} {p : KeyPoint} {key : Byte}

/-- A key whose point the instruction has lands there, if the run goes on. -/
theorem exec_lands (hk : s.kbdReq = .enabled) (hnone : s.overlapKey = none) (hp : hasPoint p i = true)
    (hp' : p ≠ .afterFetch) (h : exec i (s.pend (some (p, key))) = .next t) (ht : t.status = .running) :
    t.overlapKey = none ∧ t.kbdReq = .latched := by
  cases hi : ternaryOp i with
  | some x =>
    obtain ⟨f, d, s1, s2⟩ := x
    rw [exec_ternary_pend hi] at h
    split at h
    · cases h; cases ht
    · split at h <;> cases h
      · cases p
        case afterFetch => exact absurd rfl hp'
        case betweenSources => rw [State.landKey_pend_same (s := s.advance 7) hk, State.landKey_landed]; exact ⟨rfl, rfl⟩
        case beforeResult => rw [State.landKey_pend_ne (by decide), State.landKey_pend_same (s := s.advance 7) hk]; exact ⟨rfl, rfl⟩
      · cases ht
  | none =>
    cases p
    case afterFetch => exact absurd rfl hp'
    case betweenSources => rw [hasPoint_betweenSources, hi] at hp; cases hp
    case beforeResult =>
      rw [hasPoint_beforeResult, hi] at hp
      obtain ⟨d, -, ⟨r, hr⟩ | ⟨n, w, ⟨ws, hws⟩, hn⟩⟩ := landsBeforeStore_of_isMove s hp
      · cases (hr _).symm.trans h; cases ht
      · have hn' := hn (some (.beforeResult, key))
        rw [State.landKey_pend_same ((hws.of_none hnone).2.1.trans hk)] at hn'
        cases hn'.symm.trans h
        exact ⟨rfl, rfl⟩

end

/-- Settles O54: past the fetch the key is pending, and an instruction with its point takes it in or ends the run. -/
theorem overlappingKeyStepRunsExecAtItsPoint : Obligations.OverlappingKeyStepRunsExecAtItsPoint := by
  intro s p key turns ⟨_, hnone⟩ hrun hsched hk
  refine ⟨fun i hf hp' hp => ?point, fun r hf => ?fault⟩
  case point =>
    obtain ⟨t, ht⟩ := exec_next i (({ s with schedule := turns } : State).pend (some (p, key)))
    have hlands := exec_lands (s := { s with schedule := turns }) hk hnone hp hp' ht
    have hstep : step s = .next (settleKey t) := step_withKey hrun hsched hk hf (by rw [withKey_of_ne hp']; exact ht)
    refine ⟨t, ht, hstep.trans (congrArg _ ?_), hlands⟩
    by_cases hgoes : t.status = .running
    · rw [settleKey_of_none (hlands hgoes).1]
      exact (State.pend_none (hlands hgoes).1).symm
    · exact settleKey_of_ended hgoes
  case fault =>
    exact (step_of_schedule hrun hsched).trans
      (cycleWithKey_takeFault (s := { s with schedule := turns }) ((fetch_of_mem rfl).trans hf) p key)

/-! ## Between the source reads -/

/-- A three-address instruction with a key pending between its source reads. -/
theorem exec_ternary_betweenSources {i : Instr} {f : Word → Word → Except FaultReason Word} {d s1 s2 : Word}
    (hi : ternaryOp i = some (f, d, s1, s2)) {s : State} {key : Byte} (hk : s.kbdReq = .enabled)
    (hkey : s.overlapKey = some (.betweenSources, key)) (hd : d ≠ 0xFFFF) (h1 : s1 ≠ 0xFFFF) (h2 : s2 ≠ 0xFFFF) :
    exec i s = match f ((s.advance 7).word s1) (((s.advance 7).setByte kbAddr key).word s2) with
      | .ok r => .next (((s.advance 7).landed key).setWord d r)
      | .error e => .next ((s.landed key).takeFault e) := by
  have h := exec_ternary_pend hi s (some (.betweenSources, key))
  rw [State.pend_some hkey, if_neg (by tauto), State.landKey_pend_same (s := s.advance 7) hk,
    State.landKey_landed, State.landKey_of_some hkey hk] at h
  exact h

/-- Settles O22: the first source is read before the key lands and the second after. -/
theorem overlappingKeyReachesTheSecondSource : Obligations.OverlappingKeyReachesTheSecondSource := by
  intro s key d s1 s2 hwf hk hkey hd h1 h2
  refine ⟨fun p hp hdivisor => ?result, fun hzero mk hmk => ?fault⟩
  case result =>
    obtain ⟨f, hi, hf⟩ := ternaryOp_of_mem hp
    have hexec := exec_ternary_betweenSources (hi d s1 s2) hk hkey hd h1 h2
    rw [hf _ _ hdivisor] at hexec
    have hlanded : ((s.advance 7).landed key).mem.wf = true := wf_storeKey (wf_advance hwf 7) key
    refine ⟨_, hexec, word_setWord_same hlanded d _, fun hkb => ?kb, ?frame, rfl, rfl, rfl⟩
    case kb => exact (byte_setWord_other hkb).trans (State.landed_kb (wf_advance hwf 7) key)
    case frame =>
      exact (((sameBytes_advance s 7).append (sameBytes_landed _ key)).append (sameBytes_setWord _ d _)).mono (by grind)
  case fault =>
    obtain ⟨f, hi, hf⟩ := ternaryOp_of_divides hmk
    have hexec := exec_ternary_betweenSources (hi d s1 s2) hk hkey hd h1 h2
    rw [hf _ _ hzero] at hexec
    exact ⟨_, hexec, rfl, State.landed_kb hwf key, sameBytes_landed s key⟩

/-! ## Before the result is written -/

/-- An instruction that stores one result and goes on stores the same result with a key landed before it. -/
theorem exec_beforeResult {i : Instr} {s t : State} {d : Word} (key : Byte) (hk : s.kbdReq = .enabled)
    (hnone : s.overlapKey = none) (hp : hasPoint .beforeResult i = true) (hd : storedWords i s = [d])
    (h : exec i s = .next t) (ht : t.status = .running) :
    ∃ n w ws, Stores ws s n ∧ t = n.setWord d w ∧
      exec i (s.pend (some (.beforeResult, key))) = .next ((n.landed key).setWord d w) := by
  cases hi : ternaryOp i with
  | some x =>
    obtain ⟨f, d', s1, s2⟩ := x
    cases (dataWords_ternary hi s).1.symm.trans hd
    have hexec := exec_ternary_pend hi s (some (.beforeResult, key))
    rw [State.landKey_pend_ne (by decide), State.landKey_pend_same (s := s.advance 7) hk,
      show ((s.advance 7).pend (some (.beforeResult, key))).word s2 = (s.advance 7).word s2 from rfl] at hexec
    rw [exec_ternary_of_none hnone hi] at h
    split at h
    · cases h; cases ht
    · rename_i htop
      rw [if_neg htop] at hexec
      cases hf : f ((s.advance 7).word s1) ((s.advance 7).word s2) with
      | ok r =>
        rw [hf] at h hexec
        cases h
        exact ⟨_, r, _, Stores.advance (ip_mem_writtenWords i s) 7, rfl, hexec⟩
      | error e => rw [hf] at h; cases h; cases ht
  | none =>
    rw [hasPoint_beforeResult, hi] at hp
    obtain ⟨d', hd', ⟨r, hr⟩ | ⟨n, w, ⟨ws, hws⟩, hn⟩⟩ := landsBeforeStore_of_isMove s hp
    · have hr' := hr none
      rw [State.pend_none hnone] at hr'
      cases hr'.symm.trans h; cases ht
    · cases hd'.symm.trans hd
      obtain ⟨hnnone, hnk, -⟩ := hws.of_none hnone
      have hn' := hn none
      rw [State.pend_none hnone, State.pend_none hnnone, State.landKey_of_none hnnone] at hn'
      cases hn'.symm.trans h
      refine ⟨n, w, ws, hws, rfl, (hn _).trans ?_⟩
      rw [State.landKey_pend_same (hnk.trans hk)]

/-- A word store gives its own bytes in any two states, and leaves the other bytes alone. -/
theorem byte_setWord_congr {s t : State} (hs : s.mem.wf = true) (ht : t.mem.wf = true) {a v x : Word}
    (h : x ∉ cells a → t.byte x = s.byte x) : (t.setWord a v).byte x = (s.setWord a v).byte x := by
  by_cases hx : x ∈ cells a
  · obtain rfl | rfl := mem_cells.mp hx
    · rw [byte_setWord_low hs, byte_setWord_low ht]
    · rw [byte_setWord_high hs, byte_setWord_high ht]
  · rw [byte_setWord_other hx, byte_setWord_other hx, h hx]

/-- Settles O24: the same word is stored over the memory in which the key has landed. -/
theorem overlappingKeyBeforeTheResult : Obligations.OverlappingKeyBeforeTheResult := by
  intro s t key i d hwf hrun hk hkey hp hd h ht
  obtain ⟨n, w, ws, hws, rfl, hexec⟩ := exec_beforeResult (s := s.pend none) key hk rfl hp hd h ht
  have hnwf : n.mem.wf = true := hws.wf hwf
  have hnwf' : (n.landed key).mem.wf = true := wf_storeKey hnwf key
  rw [show (s.pend none).pend (some (.beforeResult, key)) = s from State.pend_some hkey] at hexec
  refine ⟨_, hexec, rfl, rfl, hws.status.trans hrun, fun a ha => ?others, fun hkb => ?covered, fun hkb => ?kept⟩
  case others => exact byte_setWord_congr hnwf hnwf' fun _ => sameBytes_landed n key a ha
  case covered => exact byte_setWord_congr hnwf hnwf' fun hkb' => absurd hkb hkb'
  case kept => exact (byte_setWord_other hkb).trans (State.landed_kb hnwf key)

/-! ## Faults -/

/-- No fetch ends in an arithmetic fault (R175). -/
theorem fetch_error_ne_arithmeticFault {s : State} {r : FaultReason} (h : fetch s = .error r) : r ≠ .arithmeticFault := by
  unfold fetch at h
  split at h
  · cases h
  · rename_i e _
    cases h
    cases e <;> exact fun h => FaultReason.noConfusion h

/-- Where a fault still leaves the key landed: after a fetch that answered, and between the source reads before a zero divisor. -/
def KeyLandsBeforeFault (p : KeyPoint) (r : FaultReason) : Prop :=
  p = .afterFetch ∨ (p = .betweenSources ∧ r = .arithmeticFault)

section

variable {s t u : State} {p : KeyPoint} {key : Byte} {r : FaultReason}

/-- What a faulting exec with a key in its cycle leaves, settled: the fault, with the key landed if its point was passed. -/
theorem settleKey_of_faulted {i : Instr} (hnone : s.overlapKey = none) (hrun : s.status = .running) (hk : s.kbdReq = .enabled)
    (hu : exec i (withKey p key s) = .next u) (hr : u.status = .faulted r) :
    (¬ KeyLandsBeforeFault p r ∧ settleKey u = s.takeFault r) ∨
      (KeyLandsBeforeFault p r ∧ settleKey u = (s.landed key).takeFault r) := by
  have hpend : ((s.pend (some (p, key))).takeFault r).pend none = s.takeFault r :=
    congrArg (State.takeFault · r) (State.pend_none hnone)
  rw [settleKey_of_ended (by simp [hr])]
  have hends := exec_faulted ((withKey_status s p key).trans hrun) hu hr
  cases p
  case afterFetch =>
    rw [withKey_afterFetch hk, State.landKey_landed] at hends
    obtain ⟨-, rfl⟩ | ⟨rfl, rfl⟩ := hends <;> exact .inr ⟨.inl rfl, rfl⟩
  case betweenSources =>
    rw [withKey_of_ne (by decide), State.landKey_pend_same hk] at hends
    obtain ⟨hne, rfl⟩ | ⟨rfl, rfl⟩ := hends
    · exact .inl ⟨by simp [KeyLandsBeforeFault, hne], hpend⟩
    · exact .inr ⟨.inr ⟨rfl, rfl⟩, rfl⟩
  case beforeResult =>
    rw [withKey_of_ne (by decide), State.landKey_pend_ne (by decide)] at hends
    obtain ⟨-, rfl⟩ | ⟨rfl, rfl⟩ := hends <;> exact .inl ⟨by simp [KeyLandsBeforeFault], hpend⟩

/-- Everything a faulting cycle with a key leaves. -/
theorem cycleWithKey_faulted (hnone : s.overlapKey = none) (hrun : s.status = .running)
    (h : cycleWithKey p key s = .next t) (hr : t.status = .faulted r) :
    (t = s.takeFault r ∧ (s.kbdReq = .enabled → (∃ i, fetch s = .ok i) ∨ r = .arithmeticFault → ¬ KeyLandsBeforeFault p r)) ∨
      (t = (s.landed key).takeFault r ∧ s.kbdReq = .enabled ∧ KeyLandsBeforeFault p r) := by
  obtain ⟨hk, h⟩ | ⟨e, he, rfl⟩ | ⟨hk, i, u, hf, hu, rfl⟩ := cycleWithKey_cases h
  · exact .inl ⟨(cycle_endsAs hrun hnone).eq_takeFault h hr, fun hk' => absurd hk' hk⟩
  · cases hr
    exact .inl ⟨rfl, fun _ h' => absurd h' (by simp [he, fetch_error_ne_arithmeticFault he])⟩
  · rw [settleKey_status] at hr
    obtain ⟨hno, e⟩ | ⟨hyes, e⟩ := settleKey_of_faulted hnone hrun hk hu hr
    · exact .inl ⟨e, fun _ _ => hno⟩
    · exact .inr ⟨e, hk, hyes⟩

end

/-- Settles O56: the fault leaves the state before the cycle, or that state with the key landed, by the key's point. -/
theorem faultWithAKeyChangesKbAlone : Obligations.FaultWithAKeyChangesKbAlone := by
  intro s t r p key turns ⟨hwf, hnone⟩ hsched hstep hr
  have hrun := running_of_step hstep
  rw [step_of_schedule hrun hsched] at hstep
  have hfetch : fetch { s with schedule := turns } = fetch s := fetch_of_mem rfl
  obtain ⟨rfl, hno⟩ | ⟨rfl, hk, hyes⟩ := cycleWithKey_faulted (s := { s with schedule := turns }) hnone hrun hstep hr
  · rw [hfetch] at hno
    refine ⟨SameBytesExcept.refl _ s, rfl, rfl, hnone, .inl ⟨rfl, rfl⟩, fun hp hk hf => ?afterFetch, fun hp hk hr => ?divisor,
      fun _ _ => ⟨rfl, rfl⟩, fun _ => ⟨rfl, rfl⟩⟩
    case afterFetch => exact absurd (.inl hp) (hno hk (.inl hf))
    case divisor => exact absurd (.inr ⟨hp, hr⟩) (hno hk (.inr hr))
  · have hkb := State.landed_kb hwf key
    refine ⟨sameBytes_landed s key, rfl, rfl, rfl, .inr ⟨hk, hkb, rfl⟩, fun _ _ _ => ⟨hkb, rfl⟩, fun _ _ _ => ⟨hkb, rfl⟩,
      fun hp hr => ?other, fun hp => ?beforeResult⟩
    case other => subst hp; simp [KeyLandsBeforeFault, hr] at hyes
    case beforeResult => subst hp; simp [KeyLandsBeforeFault] at hyes

end Sys2Proof.Machine
end

section
/-! FL is plain storage (spec/10_state.md section 4): two states that agree but for FL end alike under every instruction whose data
words do not cover it, and no instruction or interrupt entry changes it as a side effect. -/

namespace Sys2Proof.Machine

/-! ## States that agree but for FL -/

/-- Two canonical states that differ in the bytes of FL at most. -/
structure AgreeOffFl (s s' : State) : Prop where
  wf : s.mem.wf = true
  wf' : s'.mem.wf = true
  bytes : SameBytesExcept (regCells .fl) s s'
  control : SameControl s s'

namespace AgreeOffFl

variable {s s' : State} (h : AgreeOffFl s s')
include h

theorem word_eq {a : Word} (ha : apartReg a .fl) : s'.word a = s.word a := h.bytes.word_eq ha

theorem reg_eq {r : Reg} (hr : r ≠ .fl) : s'.reg r = s.reg r := h.word_eq (regAddr_apart hr)

theorem nextIp_eq (len : Nat) : s'.nextIp len = s.nextIp len := by
  rw [State.nextIp_eq, State.nextIp_eq, h.reg_eq (by decide)]

theorem pushAddr_eq : s'.pushAddr = s.pushAddr := pushAddr_congr (h.reg_eq (by decide)) (h.reg_eq (by decide))

theorem popAddr_eq : s'.popAddr = s.popAddr := by
  rw [State.popAddr, State.popAddr, h.reg_eq (by decide), h.reg_eq (by decide)]

/-- The same store in both states. -/
theorem setWord (a v : Word) : AgreeOffFl (s.setWord a v) (s'.setWord a v) :=
  ⟨wf_setWord h.wf a v, wf_setWord h.wf' a v, fun x hx => byte_setWord_congr h.wf h.wf' fun _ => h.bytes x hx, h.control⟩

theorem setReg (r : Reg) (v : Word) : AgreeOffFl (s.setReg r v) (s'.setReg r v) := h.setWord _ v

theorem advance (len : Nat) : AgreeOffFl (s.advance len) (s'.advance len) := by
  rw [State.advance, State.advance, h.nextIp_eq]
  exact h.setReg .ip _

/-- A source word apart from FL reads alike, after IP <- next too. -/
theorem word_advance_eq (len : Nat) {a : Word} (ha : apartReg a .fl) :
    (s'.advance len).word a = (s.advance len).word a := (h.advance len).word_eq ha

theorem withStatus (st : RunStatus) : AgreeOffFl { s with status := st } { s' with status := st } :=
  ⟨h.wf, h.wf', h.bytes, rfl, h.control.2⟩

theorem takeFault (r : FaultReason) : AgreeOffFl (s.takeFault r) (s'.takeFault r) := h.withStatus _

theorem storedWords_eq (i : Instr) : storedWords i s' = storedWords i s := by
  cases i
  case int | push => exact congrArg (fun a => [a]) h.pushAddr_eq
  all_goals rfl

end AgreeOffFl

/-- The two states end alike under `i`, each still agreeing with the other but for FL. -/
def EndsAlike (i : Instr) (s s' : State) : Prop := ∃ t t', exec i s = .next t ∧ exec i s' = .next t' ∧ AgreeOffFl t t'

section

variable {i : Instr} {s s' : State} (h : AgreeOffFl s s')
include h

/-- The same check in both states, and the same result where it passes. -/
theorem endsAlike_of_ite {c c' : Prop} [Decidable c] [Decidable c'] {r : FaultReason} {u u' : State}
    (hs : exec i s = .next (if c then s.takeFault r else u)) (hs' : exec i s' = .next (if c' then s'.takeFault r else u'))
    (hc : c' ↔ c) (hu : AgreeOffFl u u') : EndsAlike i s s' := by
  refine ⟨_, _, hs, hs', ?_⟩
  by_cases h' : c
  · rw [if_pos h', if_pos (hc.mpr h')]; exact h.takeFault r
  · rw [if_neg h', if_neg (mt hc.mp h')]; exact hu

variable (hk : s.overlapKey = none)
include hk

theorem overlapKey_of_agree : s'.overlapKey = none := h.control.2.2.2.2.trans hk

/-- The three-address shape reads the same sources and stores the same result. -/
theorem endsAlike_ternary {f : Word → Word → Except FaultReason Word} {d s1 s2 : Word}
    (hi : ternaryOp i = some (f, d, s1, s2)) (h1 : apartReg s1 .fl) (h2 : apartReg s2 .fl) : EndsAlike i s s' := by
  have hs := exec_ternary_of_none hk hi
  have hs' := exec_ternary_of_none (overlapKey_of_agree h hk) hi
  rw [h.word_advance_eq 7 h1, h.word_advance_eq 7 h2] at hs'
  split at hs
  · rename_i htop
    rw [if_pos htop] at hs'
    exact ⟨_, _, hs, hs', h.takeFault _⟩
  · rename_i htop
    rw [if_neg htop] at hs'
    cases hf : f ((s.advance 7).word s1) ((s.advance 7).word s2) <;> rw [hf] at hs hs'
    · exact ⟨_, _, hs, hs', h.takeFault _⟩
    · exact ⟨_, _, hs, hs', (h.advance 7).setWord d _⟩

/-- Every instruction that reads no data word of FL. -/
theorem endsAlike (hloaded : ∀ a ∈ loadedWords i s, apartReg a .fl) : EndsAlike i s s' := by
  have hk' := overlapKey_of_agree h hk
  cases hi : ternaryOp i with
  | some p =>
    obtain ⟨f, d, s1, s2⟩ := p
    rw [(dataWords_ternary hi s).2] at hloaded
    exact endsAlike_ternary h hk hi (hloaded s1 (by simp)) (hloaded s2 (by simp))
  | none =>
    cases i <;> simp only [ternaryOp, reduceCtorEq] at hi
    case brEq a b d =>
      refine ⟨_, _, exec_brEq a b d s, exec_brEq a b d s', ?_⟩
      rw [h.nextIp_eq]
      exact h.setReg .ip _
    case storeImm d v =>
      exact endsAlike_of_ite h (exec_storeImm d v s) (exec_storeImm d v s') Iff.rfl ((h.advance 5).setWord d v)
    case copy d a =>
      refine endsAlike_of_ite h (exec_copy_of_none hk d a) (exec_copy_of_none hk' d a) Iff.rfl ?_
      rw [h.word_advance_eq 5 (hloaded a (List.mem_singleton_self a))]
      exact (h.advance 5).setWord d _
    case lnot d a =>
      refine endsAlike_of_ite h (exec_lnot_of_none hk d a) (exec_lnot_of_none hk' d a) Iff.rfl ?_
      rw [h.word_advance_eq 5 (hloaded a (List.mem_singleton_self a))]
      exact (h.advance 5).setWord d _
    case int n =>
      by_cases hn : n.toNat < 4
      · refine endsAlike_of_ite h ((exec_int n s).trans (congrArg _ (dif_pos hn)))
          ((exec_int n s').trans (congrArg _ (dif_pos hn))) (by rw [h.pushAddr_eq]) ?_
        rw [h.pushAddr_eq, h.reg_eq (r := .sp) (by decide), h.reg_eq (r := .int ⟨n.toNat, hn⟩) (by simp),
          (h.advance 2).reg_eq (r := .ip) (by decide)]
        exact (((h.advance 2).setReg .sp _).setWord _ _).setReg .ip _
      · exact ⟨_, _, (exec_int n s).trans (congrArg _ (dif_neg hn)), (exec_int n s').trans (congrArg _ (dif_neg hn)),
          h.takeFault _⟩
    case push v =>
      refine endsAlike_of_ite h (exec_push v s) (exec_push v s') (by rw [h.pushAddr_eq]) ?_
      rw [h.pushAddr_eq, h.reg_eq (r := .sp) (by decide)]
      exact ((h.advance 3).setReg .sp _).setWord _ v
    case pop d =>
      refine endsAlike_of_ite h (exec_pop_of_none hk d) (exec_pop_of_none hk' d) (by rw [h.popAddr_eq]) ?_
      rw [h.popAddr_eq, h.reg_eq (r := .sp) (by decide), h.word_advance_eq 3 (hloaded _ (List.mem_singleton_self _))]
      exact ((h.advance 3).setReg .sp _).setWord d _
    case yield => exact ⟨_, _, exec_yield s, exec_yield s', h.advance 1⟩
    case halt => exact ⟨_, _, exec_halt s, exec_halt s', (h.advance 1).withStatus _⟩

end

/-! ## FL is kept -/

/-- No instruction changes FL but by a word it stores (R25, R120 law 3). -/
theorem exec_keeps_fl {i : Instr} {s t : State} (hk : s.overlapKey = none) (hstored : ∀ a ∈ storedWords i s, apartReg a .fl)
    (h : exec i s = .next t) : t.reg .fl = s.reg .fl := by
  obtain ⟨hframe, -⟩ := everyInstructionKeepsItsFrame i s t hk h
  rw [← flatMap_cells_writtenWords] at hframe
  refine hframe.reg_eq fun x hx hx' => ?_
  obtain ⟨a, ha, hxa⟩ := List.mem_flatMap.mp hx'
  have hapart : apartReg a .fl := by
    simp only [writtenWords, List.mem_append, List.mem_cons] at ha
    obtain ha | rfl | ha := ha
    · exact hstored a ha
    · exact regAddr_apart (by decide)
    · split at ha
      · rw [List.mem_singleton.mp ha]; exact regAddr_apart (by decide)
      · cases ha
  exact hapart x hxa hx

/-- The entry into an interrupt keeps FL where the stack word does not cover it (D25). -/
theorem raise_keeps_fl {s t : State} {n : Fin 4} (hfl : apartReg s.pushAddr .fl) (h : raise s n = .ok t) :
    t.reg .fl = s.reg .fl := by
  rw [raise_eq] at h
  split at h <;> cases h
  rw [reg_setReg_other (by decide), reg_setWord_apart hfl, reg_setReg_other (by decide)]

/-! ## The bits of FL -/

/-- The upper byte of a word holds its bits 8 to 15. -/
theorem getLsbD_secondByte (w : Word) {k : Nat} (hk : k < 8) : (secondByte w).getLsbD k = w.getLsbD (8 + k) := by
  rw [secondByte_eq, BitVec.getLsbD_extractLsb', decide_eq_true hk, Bool.true_and]

/-- Bits 14 and 15 of FL stand in the byte at `0x000D` (R25, R50). -/
theorem getLsbD_fl (s : State) {k : Nat} (hk : k < 8) : (s.byte 0x000D).getLsbD k = (s.reg .fl).getLsbD (8 + k) := by
  rw [← getLsbD_secondByte _ hk]
  exact congrArg (BitVec.getLsbD · k) (secondByte_word s (regAddr .fl)).symm

/-- The mask `0x8000` tests bit 15. -/
theorem and_ieMask_ne_zero (w : Word) : ((w &&& 0x8000) != 0) = w.getLsbD 15 := by
  rw [show (0x8000 : Word) = BitVec.twoPow 16 15 from rfl, BitVec.and_twoPow]
  cases w.getLsbD 15 <;> rfl

/-- R25: IE is bit 7 of the byte at `0x000D`. -/
theorem interruptEnable_eq_bit (s : State) : s.interruptEnable = (s.byte 0x000D).getLsbD 7 := by
  rw [State.interruptEnable, ieMask, and_ieMask_ne_zero, getLsbD_fl s (by decide)]

/-- R25: CY is bit 6 of the byte at `0x000D`. -/
theorem carry_eq_bit (s : State) : s.carry = (s.byte 0x000D).getLsbD 6 := by
  rw [State.carry, getLsbD_fl s (by decide)]

/-- Settles O42: the state with FL replaced agrees with the state but for FL, and FL itself is kept by the frame. -/
theorem flagsAreNeverASideEffect : Obligations.FlagsAreNeverASideEffect := by
  intro s v ⟨hwf, hk⟩
  have hfl : (s.setReg .fl v).reg .fl = v := reg_setReg_same hwf .fl v
  have hagree : AgreeOffFl s (s.setReg .fl v) :=
    ⟨hwf, wf_setReg hwf .fl v, sameBytes_setReg s .fl v, sameControl_setReg s .fl v⟩
  refine ⟨fun i hdata => ?instr, fun n t => raise_keeps_fl, hfl, rfl, interruptEnable_eq_bit s,
    carry_eq_bit s⟩
  case instr =>
    have hstored : ∀ a ∈ storedWords i s, apartReg a .fl := fun a ha => hdata a (List.mem_append_left _ ha)
    obtain ⟨t, t', ht, ht', hend⟩ := endsAlike hagree hk (i := i) fun a ha => hdata a (List.mem_append_right _ ha)
    refine ⟨t, t', ht, ht', exec_keeps_fl hk hstored ht, ?_, hend.bytes, hend.control⟩
    rw [← hagree.storedWords_eq i] at hstored
    exact (exec_keeps_fl (s := s.setReg .fl v) hk hstored ht').trans hfl

end Sys2Proof.Machine
end
